-- ==== Sys2Proof/Word.lean ====
section
/-! DEFINITION. The values the codec moves: bytes, pixels and cache slot numbers (00_scope.md R14, R15). -/

namespace Sys2Proof

/-- u8 of 00_scope.md R14. -/
abbrev Byte := BitVec 8

/-- The 6-bit cache slot number of 00_scope.md R7. -/
abbrev Slot := BitVec 6

/-- A Pixel is four u8 channels (00_scope.md R15). Equality is equality of all four channels. -/
structure Pixel where
  r : Byte
  g : Byte
  b : Byte
  a : Byte
deriving DecidableEq, Repr, Inhabited

/-- The pixel cache: 64 slots of one Pixel each (00_scope.md R7, 10_state.md R32). -/
abbrev Cache := Vector Pixel 64

end Sys2Proof
end

