-- ==== Sys2Proof/Config.lean ====
section
/-! DEFINITION. The implementation parameters of 00_scope.md section 3, the parameters the spec leaves OPEN, and the
free values that a hardware reset leaves in the registers the spec calls unspecified. -/

namespace Sys2Proof

/-- RUN_MAX of 00_scope.md R8: the largest number of pixels one RUN operation covers. -/
abbrev runMax : Nat := 62

/-- DELTA_MODE of 00_scope.md R11: how the encoder computes channel deltas. -/
inductive DeltaMode where
  | wrap8
  | widened
deriving DecidableEq, Repr, Inhabited

/-- The parameters a block is built or configured with (70_reset_and_hazards.md R154). The machine holds them as plain
data in its state and no step changes them, so two blocks configured differently can stand side by side (93 U16). -/
structure Config where
  /-- PREV_INIT of 00_scope.md R10, OPEN (log 1). -/
  prevInit : Pixel
  /-- DELTA_MODE of 00_scope.md R11, OPEN (log 2). -/
  deltaMode : DeltaMode
  /-- How many bytes OUT holds before the block waits for the host to take some (20_memory.md R55); none: it accepts
  every byte, as DOC's sink does (log 3). -/
  outCap : Option Nat
deriving DecidableEq, Repr

/-- FREE VALUES (log 5): what the n-th hardware reset event leaves in a register that 10_state.md R44 calls
unspecified. No body, so no proof can see which value it is. -/
opaque Config.freeWidth : Nat → BitVec 32

/-- Free value of HEIGHT after the n-th reset event (log 5). -/
opaque Config.freeHeight : Nat → BitVec 32

/-- Free value of CHANNELS after the n-th reset event (log 5). -/
opaque Config.freeChannels : Nat → Byte

/-- Free value of COLORSPACE after the n-th reset event (log 5). -/
opaque Config.freeColorspace : Nat → Byte

/-- Free value of OUT_CH after the n-th reset event (log 5). -/
opaque Config.freeOutCh : Nat → Byte

/-- Free value of PREV after the n-th reset event (log 5). -/
opaque Config.freePrev : Nat → Pixel

/-- Free value of RUN after the n-th reset event (log 5). -/
opaque Config.freeRun : Nat → BitVec 6

/-- Free contents of CACHE after the n-th reset event (log 5). -/
opaque Config.freeCache : Nat → Cache

/-- Free value of PIXCNT after the n-th reset event (log 5). -/
opaque Config.freePixcnt : Nat → BitVec 64

end Sys2Proof
end

