-- ==== Sys2Proof/Syntax.lean ====
section
/-! DEFINITION. The six operations of the byte stream (00_scope.md R3, 30_encoding.md R69), with the operands of the
assembler syntax of 30_encoding.md R82: signed deltas with their biases already taken off, and the pixel count of a run. -/

namespace Sys2Proof

/-- One constructor per row of spec/opcode_table.json. -/
inductive Instr where
  /-- INDEX i (30_encoding.md R70). -/
  | index (i : Slot)
  /-- DIFF dr, dg, db, each in -2..1 (30_encoding.md R71). -/
  | diff (dr dg db : Int)
  /-- LUMA dg, dr_dg, db_dg: the green delta in -32..31 and the two sub-deltas in -8..7 (30_encoding.md R72). -/
  | luma (dg drdg dbdg : Int)
  /-- RUN k, the number of pixels covered, 1..62 (30_encoding.md R73). -/
  | run (k : Nat)
  /-- RGB r, g, b (30_encoding.md R74). -/
  | rgb (r g b : Byte)
  /-- RGBA r, g, b, a (30_encoding.md R75). -/
  | rgba (r g b a : Byte)
deriving DecidableEq, Repr

end Sys2Proof
end

