-- ==== Sys2Proof/WellFormed.lean ====
section
/-! DEFINITION. Which operations have an encoding: the operand ranges of 30_encoding.md R82 ("An operand outside its range has
no encoding and the assembler refuses it"). -/

namespace Sys2Proof

/-- lo ≤ d ≤ hi: the spec's range notation includes both ends (00_scope.md R19). -/
def inRange (lo hi d : Int) : Bool := decide (lo ≤ d) && decide (d ≤ hi)

/-- The ranges of 30_encoding.md R82. -/
def Instr.wellFormed : Instr → Bool
  | .index _ => true
  | .diff dr dg db => inRange (-2) 1 dr && inRange (-2) 1 dg && inRange (-2) 1 db
  | .luma dg drdg dbdg => inRange (-32) 31 dg && inRange (-8) 7 drdg && inRange (-8) 7 dbdg
  | .run k => decide (1 ≤ k) && decide (k ≤ runMax)
  | .rgb _ _ _ => true
  | .rgba _ _ _ _ => true

/-- The operation has an encoding. -/
abbrev Instr.WellFormed (i : Instr) : Prop := i.wellFormed = true

end Sys2Proof
end

