-- ==== Sys2Proof/Decode.lean ====
section
/-! DEFINITION. From bytes to operations and back (30_encoding.md): the tag classifier R76, operand assembly R78, the
decoder, the encoder R83, and the two fixed frame parts R67 and R68. Every tag byte has a meaning (R79); the only thing a decoder
can lack is bytes, and it says so by name. -/

namespace Sys2Proof

/-- The class of a tag byte (30_encoding.md R69). -/
inductive TagClass where
  | rgb
  | rgba
  | index
  | diff
  | luma
  | run
deriving DecidableEq, Repr

/-- TagClass(b0) of 30_encoding.md R76: the exact matches first, then the top two bits. -/
def tagClass (b0 : Byte) : TagClass :=
  if b0 = 0xfe#8 then .rgb
  else if b0 = 0xff#8 then .rgba
  else if b0.extractLsb' 6 2 = 0b00#2 then .index
  else if b0.extractLsb' 6 2 = 0b01#2 then .diff
  else if b0.extractLsb' 6 2 = 0b10#2 then .luma
  else .run

/-- The length in bytes of an operation, from its tag's class alone (30_encoding.md R77). -/
def TagClass.length : TagClass → Nat
  | .index => 1
  | .diff => 1
  | .run => 1
  | .luma => 2
  | .rgb => 4
  | .rgba => 5

/-- The class of the tag an operation is written with (30_encoding.md R69). -/
def Instr.tag : Instr → TagClass
  | .index _ => .index
  | .diff _ _ _ => .diff
  | .luma _ _ _ => .luma
  | .run _ => .run
  | .rgb _ _ _ => .rgb
  | .rgba _ _ _ _ => .rgba

/-- A signed operand from its field: zero-extended, less the bias (30_encoding.md R78). -/
def unbias {w : Nat} (bias : Nat) (v : BitVec w) : Int := (v.toNat : Int) - (bias : Int)

/-- The field of a signed operand: the operand plus the bias, in w bits (30_encoding.md R83). -/
def biasField (w bias : Nat) (d : Int) : BitVec w := BitVec.ofInt w (d + (bias : Int))

/-- INDEX operands (30_encoding.md R70). -/
def indexOf (b0 : Byte) : Instr := .index (b0.extractLsb' 0 6)

/-- DIFF operands (30_encoding.md R71): r, g and b from bit 5 down, bias 2. -/
def diffOf (b0 : Byte) : Instr :=
  .diff (unbias 2 (b0.extractLsb' 4 2)) (unbias 2 (b0.extractLsb' 2 2)) (unbias 2 (b0.extractLsb' 0 2))

/-- LUMA operands (30_encoding.md R72): bias 32 in the first byte, bias 8 in the second. -/
def lumaOf (b0 b1 : Byte) : Instr :=
  .luma (unbias 32 (b0.extractLsb' 0 6)) (unbias 8 (b1.extractLsb' 4 4)) (unbias 8 (b1.extractLsb' 0 4))

/-- RUN operand (30_encoding.md R73): the field n stands for n + 1 pixels. -/
def runOf (b0 : Byte) : Instr := .run ((b0.extractLsb' 0 6).toNat + 1)

/-- What the decoder reads at the front of a stream. -/
inductive Decoded where
  /-- An operation and the bytes after it. -/
  | op (i : Instr) (rest : List Byte)
  /-- No byte at all: there is no tag to read. -/
  | noTag
  /-- The tag is there and the operand bytes of its class are not all there. -/
  | cutShort (c : TagClass)
deriving DecidableEq, Repr

/-- The operand bytes of a classified tag (30_encoding.md R77, R78). -/
def decodeTagged (b0 : Byte) (rest : List Byte) : TagClass → Decoded
  | .index => .op (indexOf b0) rest
  | .diff => .op (diffOf b0) rest
  | .run => .op (runOf b0) rest
  | .luma =>
    match rest with
    | b1 :: rest' => .op (lumaOf b0 b1) rest'
    | _ => .cutShort .luma
  | .rgb =>
    match rest with
    | r :: g :: b :: rest' => .op (.rgb r g b) rest'
    | _ => .cutShort .rgb
  | .rgba =>
    match rest with
    | r :: g :: b :: a :: rest' => .op (.rgba r g b a) rest'
    | _ => .cutShort .rgba

/-- The decoder: one tag byte, then the operand bytes of its class (30_encoding.md R69, R77). Bytes after the tag are
never classified. -/
def decode : List Byte → Decoded
  | [] => .noTag
  | b0 :: rest => decodeTagged b0 rest (tagClass b0)

/-- The encoder: the bytes of the assembler forms (30_encoding.md R83), fields from the most significant bit down. -/
def encode : Instr → List Byte
  | .index i => [0b00#2 ++ i]
  | .diff dr dg db => [0b01#2 ++ biasField 2 2 dr ++ biasField 2 2 dg ++ biasField 2 2 db]
  | .luma dg drdg dbdg => [0b10#2 ++ biasField 6 32 dg, biasField 4 8 drdg ++ biasField 4 8 dbdg]
  | .run k => [0b11#2 ++ BitVec.ofNat 6 (k - 1)]
  | .rgb r g b => [0xfe#8, r, g, b]
  | .rgba r g b a => [0xff#8, r, g, b, a]

/-- A u32 as four bytes, most significant first (20_memory.md R48). -/
def bytesOfU32 (v : BitVec 32) : List Byte :=
  [v.extractLsb' 24 8, v.extractLsb' 16 8, v.extractLsb' 8 8, v.extractLsb' 0 8]

/-- Four bytes read as a u32, the first one most significant (20_memory.md R48). -/
def u32OfBytes (b0 b1 b2 b3 : Byte) : BitVec 32 := b0 ++ b1 ++ b2 ++ b3

/-- The magic "qoif" as ASCII bytes (20_memory.md R50; the byte values are from general knowledge, log 15). -/
def magicBytes : List Byte := [0x71#8, 0x6f#8, 0x69#8, 0x66#8]

/-- HEADER w, h, c, s: the 14-byte preamble (30_encoding.md R67). -/
def encodeHeader (w h : BitVec 32) (c cs : Byte) : List Byte :=
  magicBytes ++ bytesOfU32 w ++ bytesOfU32 h ++ [c, cs]

/-- END: the 8-byte end marker (30_encoding.md R68). -/
def endMarker : List Byte := [0#8, 0#8, 0#8, 0#8, 0#8, 0#8, 0#8, 1#8]

/-- The bytes of an opcode-table word, as they lie in the stream: byte k is bits 8k+7..8k, and every bit above nbits is 0.
Five bytes, the longest operation (log 21). -/
def tableBytes (nbits w : Nat) : List Byte :=
  let v := w % 2 ^ nbits
  [BitVec.ofNat 8 v, BitVec.ofNat 8 (v / 2 ^ 8), BitVec.ofNat 8 (v / 2 ^ 16), BitVec.ofNat 8 (v / 2 ^ 24),
    BitVec.ofNat 8 (v / 2 ^ 32)]

/-- The operation the decoder reads from an opcode-table word (log 21). -/
def decodeTableWord (nbits w : Nat) : Option Instr :=
  match decode (tableBytes nbits w) with
  | .op i _ => some i
  | .noTag => none
  | .cutShort _ => none

end Sys2Proof
end

