-- ==== Sys2Proof/Machine/State.lean ====
section
/-! DEFINITION. The architectural state of 10_state.md (every register of rules R24 to R34 and the two byte streams of
20_memory.md R47), the host's moves, the reasons a step can stop, and the state right after reset (R44). -/

namespace Sys2Proof.Machine

/-- PHASE, 10_state.md R24. -/
inductive Phase where
  | idle
  | eHdr
  | ePix
  | ePad
  | dMagic
  | dHdr
  | dPix
  | dPad
  | done
deriving DecidableEq, Repr

/-- What the outside world can do in one turn (10_state.md R39, R40; 70_reset_and_hazards.md R151). -/
inductive HostMove where
  /-- ENCODE(width, height, channels, colorspace), 10_state.md R39. -/
  | encode (width height : BitVec 32) (channels colorspace : Byte)
  /-- DECODE(out_ch), 10_state.md R39. -/
  | decode (outCh : Byte)
  /-- Append bytes to IN, in order (20_memory.md R47). -/
  | supply (bytes : List Byte)
  /-- Take the first n bytes of OUT (20_memory.md R47). -/
  | take (n : Nat)
  /-- The hardware reset event, 70_reset_and_hazards.md R151. -/
  | reset
  /-- Make no move: the turn is the codec's (log 6). -/
  | leave
deriving DecidableEq, Repr

/-- The two commands of 10_state.md R39, as the observation of a finished one tells them apart (R43, log 13). -/
inductive Command where
  | encode
  | decode
deriving DecidableEq, Repr

/-- Why the machine stops. The first three are the spec's waits and rest states: no step is enabled and the host has no
move left, so nothing more ever happens (93_implementation_defined.md `stuck`, log 7). -/
inductive Fault where
  /-- Raised by a codec step that needs more bytes than IN holds (20_memory.md R54). Safe: the model stops where the
  block waits. -/
  | waitInput
  /-- Raised by a codec step whose bytes OUT cannot accept (20_memory.md R55). Safe: the model stops where the block
  waits. -/
  | waitOutput
  /-- Raised in IDLE and DONE, where no step is enabled until the host issues a command (60_exceptions.md R150). Safe. -/
  | atRest
  /-- Raised by the encoder's pixel step when CHANNELS is neither 3 nor 4, so that R97 gives it no pixel. ENCODE refuses
  such an argument (41_encoder.md R95), so no run reaches it (log 12). Safe. -/
  | illegalChannels
deriving DecidableEq, Repr

/-- The inputs to which the spec gives no meaning (60_exceptions.md R138). -/
inductive Refusal where
  /-- Raised by ENCODE with channels not 3 or 4, or colorspace not 0 or 1 (41_encoder.md R95). Safe. -/
  | encodeArgs
  /-- Raised by DECODE with out_ch not 3 or 4 (42_decoder.md R116). Safe. -/
  | decodeArgs
  /-- Raised by a command while PHASE is neither IDLE nor DONE (10_state.md R39). Safe in that no claim can be made
  of such a run; the host is assumed never to do it. -/
  | busy
  /-- Raised by an arm of exec whose instruction has no meaning yet. Safe. No arm raises it. -/
  | notModelled (mnemonic : String)
deriving DecidableEq, Repr

/-- The state of 10_state.md, with the model's own fields written, command, host, cfg and resets last. -/
structure State where
  /-- PHASE, R24. -/
  phase : Phase
  /-- WIDTH, R25. -/
  width : BitVec 32
  /-- HEIGHT, R26. -/
  height : BitVec 32
  /-- CHANNELS, R27. -/
  channels : Byte
  /-- COLORSPACE, R28. -/
  colorspace : Byte
  /-- OUT_CH, R29. -/
  outCh : Byte
  /-- PREV, R30. -/
  prev : Pixel
  /-- RUN, R31. -/
  run : BitVec 6
  /-- CACHE[0..63], R32. -/
  cache : Cache
  /-- PIXCNT, R33. -/
  pixcnt : BitVec 64
  /-- STATUS, R34. -/
  status : BitVec 32
  /-- IN: supplied and not yet consumed, first byte first (20_memory.md R47). -/
  inp : List Byte
  /-- OUT: written and not yet taken by the host, first byte first (20_memory.md R47). -/
  out : List Byte
  /-- The model's own record of the bytes written to OUT since the command started (10_state.md R43, log 13). -/
  written : List Byte
  /-- The model's own record of the command that started last, none before the first (10_state.md R43, log 13). -/
  command : Option Command
  /-- The host's moves still to come, the next one first (10_state.md R40, log 6). -/
  host : List HostMove
  /-- The parameters, which no step changes (00_scope.md R10, R11; log 1 to 3). -/
  cfg : Config
  /-- How many hardware reset events there have been: the index of the free values (log 5). -/
  resets : Nat
deriving DecidableEq, Repr

/-- The machine right after reset (10_state.md R44): PHASE = IDLE and STATUS = 0. The other registers are unspecified
there and hold the values named in log 4; the parameters hold the values the spec recommends (log 1 to 3). -/
def State.reset : State where
  phase := .idle
  width := 0
  height := 0
  channels := 0
  colorspace := 0
  outCh := 0
  prev := ⟨0, 0, 0, 255⟩
  run := 0
  cache := Vector.replicate 64 ⟨0, 0, 0, 0⟩
  pixcnt := 0
  status := 0
  inp := []
  out := []
  written := []
  command := none
  host := []
  cfg := ⟨⟨0, 0, 0, 255⟩, .wrap8, none⟩
  resets := 0

end Sys2Proof.Machine
end

