-- ==== Sys2Proof/Machine/Flags.lean ====
section
/-! DEFINITION. The fields of STATUS (10_state.md R34). The block has no other flag (R36). -/

namespace Sys2Proof.Machine

/-- Bit number of BUSY. -/
abbrev busyBit : Nat := 0
/-- Bit number of DONE. -/
abbrev doneBit : Nat := 1
/-- Bit number of VALID. -/
abbrev validBit : Nat := 2
/-- Bit number of ERR_MAGIC. -/
abbrev errMagicBit : Nat := 3
/-- Bit number of ERR_PAD. -/
abbrev errPadBit : Nat := 4

/-- STATUS.BUSY. -/
def State.busy (s : State) : Bool := s.status.getLsbD busyBit
/-- STATUS.DONE. -/
def State.isDone (s : State) : Bool := s.status.getLsbD doneBit
/-- STATUS.VALID. -/
def State.valid (s : State) : Bool := s.status.getLsbD validBit
/-- STATUS.ERR_MAGIC. -/
def State.errMagic (s : State) : Bool := s.status.getLsbD errMagicBit
/-- STATUS.ERR_PAD. -/
def State.errPad (s : State) : Bool := s.status.getLsbD errPadBit

/-- Write one field of a status word and leave the other bits. -/
def setField (bit : Nat) (v : Bool) (w : BitVec 32) : BitVec 32 :=
  if v then w ||| (1#32 <<< bit) else w &&& ~~~(1#32 <<< bit)

/-- STATUS at command start: BUSY = 1, all other fields 0 (10_state.md R45, 70_reset_and_hazards.md R152). -/
def statusAtStart : BitVec 32 := setField busyBit true 0

/-- BUSY <- 0 and DONE <- 1: the end of every command (41_encoder.md R113, 42_decoder.md R131, 60_exceptions.md R136). -/
def statusEnd (w : BitVec 32) : BitVec 32 := setField doneBit true (setField busyBit false w)

end Sys2Proof.Machine
end

