-- ==== Sys2Proof/Machine/Operands.lean ====
section
/-! DEFINITION. Channel arithmetic of both directions (00_scope.md R14, R19; 41_encoder.md R106), and the raw pixel
bytes that come in and go out (20_memory.md R49, 41_encoder.md R97, 42_decoder.md R128). -/

namespace Sys2Proof.Machine

/-- wrap8(x) = x mod 256 of 00_scope.md R14. -/
def wrap8 (x : Int) : Byte := BitVec.ofInt 8 x

/-- sext_8(v) of 00_scope.md R14. -/
def sext8 (v : Byte) : Int := if v.toNat < 128 then (v.toNat : Int) else (v.toNat : Int) - 256

/-- The decoder adds a delta back with wrap8 (00_scope.md R19). -/
def addDelta (c : Byte) (d : Int) : Byte := wrap8 ((c.toNat : Int) + d)

/-- The encoder's channel delta (41_encoder.md R106). -/
def channelDelta (m : DeltaMode) (c q : Byte) : Int :=
  match m with
  | .wrap8 => sext8 (wrap8 ((c.toNat : Int) - (q.toNat : Int)))
  | .widened => (c.toNat : Int) - (q.toNat : Int)

/-- The pixel whose color channels differ from q's by the given deltas, alpha unchanged (42_decoder.md R124, R125). -/
def addDeltas (q : Pixel) (dr dg db : Int) : Pixel :=
  ⟨addDelta q.r dr, addDelta q.g dg, addDelta q.b db, q.a⟩

/-- The pixel of the raw bytes of 41_encoder.md R97: alpha is 255 when there are 3. No other number of bytes is a pixel. -/
def pixelOfRaw : List Byte → Option Pixel
  | [r, g, b] => some ⟨r, g, b, 255#8⟩
  | [r, g, b, a] => some ⟨r, g, b, a⟩
  | _ => none

/-- A pixel's first n channels in the order r, g, b, a (42_decoder.md R119, R128). n is OUT_CH, 3 or 4 (log 17). -/
def pixelBytes (n : Byte) (p : Pixel) : List Byte := [p.r, p.g, p.b, p.a].take n.toNat

/-- The 32-bit packing of a Pixel, r in bits 31:24 (00_scope.md R15). No rule and no observation depends on it. -/
def packPixel (p : Pixel) : BitVec 32 := p.r ++ p.g ++ p.b ++ p.a

/-- The pixel of a packed word (00_scope.md R15). -/
def unpackPixel (w : BitVec 32) : Pixel :=
  ⟨w.extractLsb' 24 8, w.extractLsb' 16 8, w.extractLsb' 8 8, w.extractLsb' 0 8⟩

end Sys2Proof.Machine
end

