-- ==== Sys2Proof/Machine/Ops.lean ====
section
/-! DEFINITION. The named operations over registers and streams: hash_function and pixel_cache_lookup (40_hash_cache.md),
the stream primitives (00_scope.md R17), command start (70_reset_and_hazards.md R152), the end of a pixel step, and raising
an error (60_exceptions.md R136). An error has no return: there is no handler, and the only way out of DONE is the next command
(R142, R143). -/

namespace Sys2Proof.Machine

/-- What a step answers. -/
abbrev Result := Host.Outcome State Fault Refusal

/-- NPIX = WIDTH × HEIGHT, exactly (00_scope.md R12). -/
def State.npix (s : State) : Nat := s.width.toNat * s.height.toNat

/-- Hash of 40_hash_cache.md R84: the exact sum, mod 64. -/
def pixelHash (p : Pixel) : Slot :=
  BitVec.ofNat 6 (p.r.toNat * 3 + p.g.toNat * 5 + p.b.toNat * 7 + p.a.toNat * 11)

/-- CacheRead of 40_hash_cache.md R88. -/
def cacheRead (cache : Cache) (i : Slot) : Pixel := cache[i.toNat]

/-- CacheWrite of 40_hash_cache.md R90. -/
def cacheWrite (cache : Cache) (i : Slot) (p : Pixel) : Cache := cache.set i.toNat p

/-- Hit of 40_hash_cache.md R89: all four channels are compared. -/
def cacheHit (cache : Cache) (p : Pixel) : Bool := decide (cacheRead cache (pixelHash p) = p)

/-- Every slot (0,0,0,0): the clear of 40_hash_cache.md R91. -/
def clearedCache : Cache := Vector.replicate 64 ⟨0, 0, 0, 0⟩

/-- MemRead(IN, n) of 00_scope.md R17: the first n bytes and the stream without them; none when IN holds fewer. -/
def memRead (n : Nat) (inp : List Byte) : Option (List Byte × List Byte) :=
  if n ≤ inp.length then some (inp.take n, inp.drop n) else none

/-- Whether OUT can accept n more bytes (20_memory.md R55, log 3). A step that writes nothing never waits for output. -/
def State.accepts (s : State) (n : Nat) : Bool :=
  match s.cfg.outCap with
  | none => true
  | some cap => decide (n = 0) || decide (s.out.length + n ≤ cap)

/-- The end of an atomic step (10_state.md R42): its bytes go to OUT in order, all or none; when OUT cannot accept them
the step has no move (20_memory.md R55). -/
def commit (bytes : List Byte) (s : State) : Result :=
  if s.accepts bytes.length then
    .next { s with out := s.out ++ bytes, written := s.written ++ bytes }
  else .fault .waitOutput

/-- Command start (10_state.md R45, 70_reset_and_hazards.md R152), less the argument registers, PHASE and the
model's record of which command it is. -/
def startCommand (s : State) : State :=
  { s with
    cache := clearedCache
    prev := s.cfg.prevInit
    run := 0
    pixcnt := 0
    status := statusAtStart
    written := [] }

/-- Whether a command is accepted: PHASE is IDLE or DONE (10_state.md R39). -/
def State.atRest (s : State) : Bool := decide (s.phase = .idle) || decide (s.phase = .done)

/-- The end of every pixel step of both directions (41_encoder.md R98, 42_decoder.md R119): PREV <- px,
PIXCNT <- PIXCNT + 1, and the end-marker phase when that reaches NPIX. -/
def advancePixel (px : Pixel) (pad : Phase) (s : State) : State :=
  { s with
    prev := px
    pixcnt := s.pixcnt + 1
    phase := if (s.pixcnt + 1).toNat = s.npix then pad else s.phase }

/-- The end of every decoder pixel step: px's first OUT_CH channels, then PREV and PIXCNT (42_decoder.md R128, R129). -/
def emitPixel (px : Pixel) (s : State) : Result :=
  commit (pixelBytes s.outCh px) (advancePixel px .dPad s)

/-- The end of an operation that is not RUN: CACHE[Hash(px)] <- px first (42_decoder.md R127). -/
def completeOperation (px : Pixel) (s : State) : Result :=
  emitPixel px { s with cache := cacheWrite s.cache (pixelHash px) px }

/-- The two error kinds of 60_exceptions.md R133. -/
inductive ErrorKind where
  | magicMismatch
  | padMismatch
deriving DecidableEq, Repr

/-- raise E (60_exceptions.md R136): the STATUS fields of R134 or R135, BUSY <- 0, DONE <- 1, phase <- DONE. The bytes
read are not stored and nothing else is saved. -/
def raiseError (e : ErrorKind) (s : State) : State :=
  { s with
    status :=
      statusEnd (setField (match e with | .magicMismatch => errMagicBit | .padMismatch => errPadBit) true
        (setField validBit false s.status))
    phase := .done }

/-- Normal completion: VALID <- 1, BUSY <- 0, DONE <- 1, phase <- DONE (41_encoder.md R113, 42_decoder.md R131). -/
def finishValid (s : State) : State :=
  { s with status := statusEnd (setField validBit true s.status), phase := .done }

end Sys2Proof.Machine
end

