-- ==== Sys2Proof/Machine/Commands.lean ====
section
/-! DEFINITION. What the host can do (10_state.md R39, R40; 41_encoder.md R95; 42_decoder.md R116;
70_reset_and_hazards.md R151). -/

namespace Sys2Proof.Machine

/-- ENCODE acceptance (41_encoder.md R95). A command while one is running is refused first (log 8). -/
def acceptEncode (w h : BitVec 32) (c cs : Byte) (s : State) : Result :=
  if s.atRest = false then .refused .busy
  else if (c = 3#8 ∨ c = 4#8) ∧ (cs = 0#8 ∨ cs = 1#8) then
    .next { startCommand s with width := w, height := h, channels := c, colorspace := cs, phase := .eHdr, command := some .encode }
  else .refused .encodeArgs

/-- DECODE acceptance (42_decoder.md R116). -/
def acceptDecode (oc : Byte) (s : State) : Result :=
  if s.atRest = false then .refused .busy
  else if oc = 3#8 ∨ oc = 4#8 then .next { startCommand s with outCh := oc, phase := .dMagic, command := some .decode }
  else .refused .decodeArgs

/-- The host appends bytes to IN at its end (20_memory.md R47). -/
def supplyBytes (bytes : List Byte) (s : State) : State := { s with inp := s.inp ++ bytes }

/-- The host takes the first n bytes of OUT, or all it holds when that is fewer (20_memory.md R47, log 20). -/
def takeBytes (n : Nat) (s : State) : State := { s with out := s.out.drop n }

/-- The hardware reset event (70_reset_and_hazards.md R151): PHASE = IDLE, STATUS = 0, every other register unspecified
(10_state.md R44), here a free value (log 5). The streams are neither read nor written. -/
def hardwareReset (s : State) : State :=
  { s with
    phase := .idle
    status := 0
    width := Config.freeWidth s.resets
    height := Config.freeHeight s.resets
    channels := Config.freeChannels s.resets
    colorspace := Config.freeColorspace s.resets
    outCh := Config.freeOutCh s.resets
    prev := Config.freePrev s.resets
    run := Config.freeRun s.resets
    cache := Config.freeCache s.resets
    pixcnt := Config.freePixcnt s.resets
    resets := s.resets + 1 }

/-- The registers the host can read (10_state.md R40). -/
inductive HostReg where
  | status
  | width
  | height
  | channels
  | colorspace
deriving DecidableEq, Repr

/-- A host read (10_state.md R40): allowed at any time, and it changes nothing. CACHE, PREV, RUN and PIXCNT have no
name here. -/
def hostRead (r : HostReg) (s : State) : BitVec 32 :=
  match r with
  | .status => s.status
  | .width => s.width
  | .height => s.height
  | .channels => s.channels.setWidth 32
  | .colorspace => s.colorspace.setWidth 32

end Sys2Proof.Machine
end

