-- ==== Sys2Proof/Machine/Decoder.lean ====
section
/-! DEFINITION. The decoder's frame steps (42_decoder.md): magic check, header read, end-marker check. -/

namespace Sys2Proof.Machine

/-- Magic check, the step in D_MAGIC (42_decoder.md R117): four bytes are read whether or not they match; on a mismatch the
header registers stay unwritten. -/
def decMagic (s : State) : Result :=
  match memRead 4 s.inp with
  | none => .fault .waitInput
  | some (m, rest) =>
    if m = magicBytes then .next { s with inp := rest, phase := .dHdr }
    else .next (raiseError .magicMismatch { s with inp := rest })

/-- The registers and phase after the header read (42_decoder.md R118): no field is checked. -/
def loadHeader (w h : BitVec 32) (c cs : Byte) (s : State) : State :=
  { s with
    width := w
    height := h
    channels := c
    colorspace := cs
    phase := if w.toNat * h.toNat > 0 then .dPix else .dPad }

/-- Header read, the step in D_HDR (42_decoder.md R118). -/
def decHeader (s : State) : Result :=
  match s.inp with
  | w0 :: w1 :: w2 :: w3 :: h0 :: h1 :: h2 :: h3 :: c :: cs :: rest =>
    .next (loadHeader (u32OfBytes w0 w1 w2 w3) (u32OfBytes h0 h1 h2 h3) c cs { s with inp := rest })
  | _ => .fault .waitInput

/-- End-marker check, the step in D_PAD (42_decoder.md R131): all eight bytes are read before the compare. An owed run is
dropped: RUN is not read (R130). -/
def decPad (s : State) : Result :=
  match memRead 8 s.inp with
  | none => .fault .waitInput
  | some (t, rest) =>
    if t = endMarker then .next (finishValid { s with inp := rest })
    else .next (raiseError .padMismatch { s with inp := rest })

end Sys2Proof.Machine
end

