-- ==== Sys2Proof/Machine/Delta.lean ====
section
/-! DEFINITION. The delta operations DIFF (42_decoder.md R124) and LUMA (R125). -/

namespace Sys2Proof.Machine

/-- DIFF dr, dg, db: each channel plus its delta with wrap8, alpha unchanged (42_decoder.md R124). -/
def execDiff (dr dg db : Int) (s : State) : Result := completeOperation (addDeltas s.prev dr dg db) s

/-- LUMA dg, dr-dg, db-dg: green plus dg, red and blue plus dg and their sub-deltas, alpha unchanged (42_decoder.md R125). -/
def execLuma (dg drdg dbdg : Int) (s : State) : Result :=
  completeOperation (addDeltas s.prev (dg + drdg) dg (dg + dbdg)) s

end Sys2Proof.Machine
end

