-- ==== Sys2Proof/Machine/Index.lean ====
section
/-! DEFINITION. The INDEX operation (42_decoder.md R123). -/

namespace Sys2Proof.Machine

/-- INDEX i: px <- CACHE[i] verbatim, alpha included; the read comes before the write at Hash(px) (42_decoder.md R123). -/
def execIndex (i : Slot) (s : State) : Result := completeOperation (cacheRead s.cache i) s

end Sys2Proof.Machine
end

