-- ==== Sys2Proof/Machine/Literal.lean ====
section
/-! DEFINITION. The literal operations RGB (42_decoder.md R121) and RGBA (R122). -/

namespace Sys2Proof.Machine

/-- RGB r, g, b: alpha inherited from PREV (42_decoder.md R121). -/
def execRgb (r g b : Byte) (s : State) : Result := completeOperation ⟨r, g, b, s.prev.a⟩ s

/-- RGBA r, g, b, a (42_decoder.md R122). -/
def execRgba (r g b a : Byte) (s : State) : Result := completeOperation ⟨r, g, b, a⟩ s

end Sys2Proof.Machine
end

