-- ==== Sys2Proof/Machine/Run.lean ====
section
/-! DEFINITION. The RUN operation (42_decoder.md R126) and the run repeat (R120). -/

namespace Sys2Proof.Machine

/-- RUN k: RUN <- n where n = k - 1, and this step's pixel is PREV; the cache is not written (42_decoder.md R126). -/
def execRun (k : Nat) (s : State) : Result :=
  emitPixel s.prev { s with run := BitVec.ofNat 6 (k - 1) }

/-- The run repeat: RUN <- RUN - 1 and PREV once more; no byte is read and the cache is not touched (42_decoder.md R120). -/
def runRepeat (s : State) : Result := emitPixel s.prev { s with run := s.run - 1 }

end Sys2Proof.Machine
end

