-- ==== Sys2Proof/Machine/Dispatch.lean ====
section
/-! DEFINITION. One arm per operation (30_encoding.md R69): what the decoder's pixel step does with it once its bytes are
consumed (42_decoder.md R119, R121 to R129). -/

namespace Sys2Proof.Machine

def exec (i : Instr) (s : State) : Host.Outcome State Fault Refusal :=
  match i with
  | .index slot => Sys2Proof.Machine.execIndex slot s
  | .diff dr dg db => Sys2Proof.Machine.execDiff dr dg db s
  | .luma dg drdg dbdg => Sys2Proof.Machine.execLuma dg drdg dbdg s
  | .run k => Sys2Proof.Machine.execRun k s
  | .rgb r g b => Sys2Proof.Machine.execRgb r g b s
  | .rgba r g b a => Sys2Proof.Machine.execRgba r g b a s

end Sys2Proof.Machine
end

