-- ==== Sys2Proof/Machine/Encoder.lean ====
section
/-! DEFINITION. The encoder (41_encoder.md): header writer, run_length_encoder, tag_mux, pixel step, end-marker writer. -/

namespace Sys2Proof.Machine

/-- The ports of run_length_encoder (41_encoder.md R102). -/
structure RleOut where
  flush : Bool
  flushByte : List Byte
  runNext : BitVec 6
  goTagMux : Bool
deriving DecidableEq, Repr

/-- run_length_encoder (41_encoder.md R99 to R102): eq is px = PREV, last is the last-pixel condition. The flush byte is
the RUN operation of the flushed length. -/
def runLengthEncoder (eq last : Bool) (run : BitVec 6) : RleOut :=
  if eq then
    let counted := run + 1
    if counted.toNat = runMax ∨ last = true then ⟨true, encode (.run counted.toNat), 0, false⟩
    else ⟨false, [], counted, false⟩
  else if run.toNat > 0 then ⟨true, encode (.run run.toNat), 0, true⟩
  else ⟨false, [], run, true⟩

/-- The DIFF condition of 41_encoder.md R108. -/
def fitsDiff (dr dg db : Int) : Bool := inRange (-2) 1 dr && inRange (-2) 1 dg && inRange (-2) 1 db

/-- The LUMA condition of 41_encoder.md R109, for deltas that do not fit DIFF; the sub-deltas are exact ints (R106). -/
def fitsLuma (dr dg db : Int) : Bool :=
  inRange (-32) 31 dg && inRange (-8) 7 (dr - dg) && inRange (-8) 7 (db - dg)

/-- The operation for a cache miss with unchanged alpha, from the deltas (41_encoder.md R108 to R110). -/
def deltaOperation (dr dg db : Int) (px : Pixel) : Instr :=
  if fitsDiff dr dg db then .diff dr dg db
  else if fitsLuma dr dg db then .luma dg (dr - dg) (db - dg)
  else .rgb px.r px.g px.b

/-- TagMux(px) of 41_encoder.md R103: the operation, in strict priority order. -/
def tagMux (m : DeltaMode) (px prev : Pixel) (cache : Cache) : Instr :=
  if cacheHit cache px then .index (pixelHash px)
  else if px.a ≠ prev.a then .rgba px.r px.g px.b px.a
  else
    deltaOperation (channelDelta m px.r prev.r) (channelDelta m px.g prev.g) (channelDelta m px.b prev.b) px

/-- The cache update on a miss, and none on a hit (41_encoder.md R104, R105). -/
def tagMuxCache (px : Pixel) (cache : Cache) : Cache :=
  if cacheHit cache px then cache else cacheWrite cache (pixelHash px) px

/-- The last-pixel condition PIXCNT = WIDTH × HEIGHT - 1 (41_encoder.md R98). -/
def State.lastPixel (s : State) : Bool := decide (s.pixcnt.toNat + 1 = s.npix)

/-- Header writer, the step in E_HDR (41_encoder.md R96). -/
def encHeader (s : State) : Result :=
  commit (encodeHeader s.width s.height s.channels s.colorspace)
    { s with phase := if s.npix > 0 then .ePix else .ePad }

/-- The encoder's step for the pixel px it has read (41_encoder.md R98): a pending or full run first, then the
operation tag_mux selects, then PREV and PIXCNT. -/
def encodePixel (px : Pixel) (s : State) : Result :=
  let e := runLengthEncoder (decide (px = s.prev)) s.lastPixel s.run
  let bytes := if e.goTagMux then encode (tagMux s.cfg.deltaMode px s.prev s.cache) else []
  let cache := if e.goTagMux then tagMuxCache px s.cache else s.cache
  commit (e.flushByte ++ bytes) (advancePixel px .ePad { s with run := e.runNext, cache := cache })

/-- Encoder pixel step, the step in E_PIX (41_encoder.md R97, R98). -/
def encPixel (s : State) : Result :=
  match memRead s.channels.toNat s.inp with
  | none => .fault .waitInput
  | some (raw, rest) =>
    match pixelOfRaw raw with
    | none => .fault .illegalChannels
    | some px => encodePixel px { s with inp := rest }

/-- End-marker writer, the step in E_PAD (41_encoder.md R113). -/
def encPad (s : State) : Result := commit endMarker (finishValid s)

end Sys2Proof.Machine
end

