-- ==== Sys2Proof/Machine/Codec.lean ====
section
/-! DEFINITION. One turn of the machine: the codec's step in each phase (10_state.md R41), the decoder's fetch of an
operation (42_decoder.md R119), and the host's moves (R40). -/

namespace Sys2Proof.Machine

/-- Decoder pixel step, the step in D_PIX (42_decoder.md R119): an owed repeat first, with no byte read; else one
operation is fetched from the front of IN and executed. -/
def decPixel (s : State) : Result :=
  if s.run.toNat > 0 then runRepeat s
  else
    match decode s.inp with
    | .op i rest => exec i { s with inp := rest }
    | .noTag => .fault .waitInput
    | .cutShort _ => .fault .waitInput

/-- The codec's step: one row of 10_state.md R41. In IDLE and DONE no step is enabled (60_exceptions.md R150). -/
def codecStep (s : State) : Result :=
  match s.phase with
  | .idle => .fault .atRest
  | .eHdr => encHeader s
  | .ePix => encPixel s
  | .ePad => encPad s
  | .dMagic => decMagic s
  | .dHdr => decHeader s
  | .dPix => decPixel s
  | .dPad => decPad s
  | .done => .fault .atRest

/-- The codec's turn when the host still has moves to make: the codec's step, and where it has none the turn passes and
nothing changes (60_exceptions.md R139, log 7). -/
def codecTurn (s : State) : Result :=
  match codecStep s with
  | .next t => .next t
  | .fault .waitInput => .next s
  | .fault .waitOutput => .next s
  | .fault .atRest => .next s
  | .fault .illegalChannels => .fault .illegalChannels
  | .refused r => .refused r

/-- One move of the host (10_state.md R40). -/
def hostTurn (m : HostMove) (s : State) : Result :=
  match m with
  | .encode w h c cs => acceptEncode w h c cs s
  | .decode oc => acceptDecode oc s
  | .supply bytes => .next (supplyBytes bytes s)
  | .take n => .next (takeBytes n s)
  | .reset => .next (hardwareReset s)
  | .leave => codecTurn s

/-- One turn of the machine: the host's next move, or a codec step when the host has none left (log 6). -/
def turn (s : State) : Result :=
  match s.host with
  | [] => codecStep s
  | m :: rest => hostTurn m { s with host := rest }

/-- s with the bytes of an opcode-table word standing where the next operation is fetched, in the middle of a DECODE: the
host makes no move, the phase is D_PIX with a pixel left and no owed repeat, and the first five bytes of IN are the word's
(log 14). -/
def placeWord (nbits w : Nat) (s : State) : State :=
  let t := { s with
    host := []
    phase := .dPix
    status := statusAtStart
    command := some .decode
    run := 0
    outCh := if s.outCh = 3 then 3 else 4
    inp := tableBytes nbits w ++ s.inp.drop 5 }
  if t.pixcnt.toNat < t.npix then t else { t with width := 1, height := 1, pixcnt := 0 }

end Sys2Proof.Machine
end

