-- ==== Sys2Proof/Machine/Step.lean ====
section
/-! DEFINITION. The step of the machine, and a state whose next step fetches a given opcode-table word. -/

namespace Sys2Proof.Machine

/-- One step: one turn of the host or of the codec (Codec.lean). -/
def step (s : State) : Host.Outcome State Fault Refusal := turn s

/-- s with an opcode-table word where step fetches its next operation (log 14). -/
def State.withFetchWord (s : State) (nbits w : Nat) : State := placeWord nbits w s

end Sys2Proof.Machine
end

