-- ==== Sys2Proof/Safety.lean ====
section
/-! DEFINITION. What statements are written in: the observation of a command (10_state.md R43), the invariants of the spec's
prose, what one step leaves alone, and the words for a step's inputs and outputs. -/

namespace Sys2Proof.Machine

/-- The phases of an ENCODE (10_state.md R24). -/
def Phase.encoding : Phase → Bool
  | .eHdr => true
  | .ePix => true
  | .ePad => true
  | .idle => false
  | .dMagic => false
  | .dHdr => false
  | .dPix => false
  | .dPad => false
  | .done => false

/-- The phases of a DECODE (10_state.md R24). -/
def Phase.decoding : Phase → Bool
  | .dMagic => true
  | .dHdr => true
  | .dPix => true
  | .dPad => true
  | .idle => false
  | .eHdr => false
  | .ePix => false
  | .ePad => false
  | .done => false

/-- What a finished command shows (10_state.md R43): the bytes it wrote and STATUS, and the header registers too after a DECODE
with a good magic. -/
structure Observation where
  bytes : List Byte
  status : BitVec 32
  header : Option (BitVec 32 × BitVec 32 × Byte × Byte)
deriving DecidableEq, Repr

/-- Whether the last command was a DECODE whose magic check passed: the commands that show the header registers
(10_state.md R43). -/
def State.showsHeader (s : State) : Bool := decide (s.command = some .decode) && !s.errMagic

/-- The observation at DONE, and none before (10_state.md R43). -/
def State.observation (s : State) : Option Observation :=
  if s.phase = .done then
    some ⟨s.written, s.status,
      if s.showsHeader then some (s.width, s.height, s.channels, s.colorspace) else none⟩
  else none

/-- STATUS agrees with PHASE, and its reserved bits read 0 (10_state.md R34, R35): 0 in IDLE, BUSY alone during a command,
and at DONE one of VALID, ERR_MAGIC and ERR_PAD beside DONE. -/
def State.StatusMatchesPhase (s : State) : Prop :=
  (s.phase = .idle → s.status = 0#32) ∧
  (s.phase = .done → s.status = 0x06#32 ∨ s.status = 0x0a#32 ∨ s.status = 0x12#32) ∧
  (s.phase ≠ .idle → s.phase ≠ .done → s.status = 0x01#32)

/-- Between the steps of a command RUN is in [0, 61] (10_state.md R31). In IDLE it is unspecified (R44). -/
def State.RunInRange (s : State) : Prop := s.phase ≠ .idle → s.run.toNat ≤ 61

/-- Every slot holds (0,0,0,0) or a pixel that hashes to it (40_hash_cache.md R94). In IDLE the cache is unspecified. -/
def State.SlotsHoldTheirHash (s : State) : Prop :=
  s.phase ≠ .idle →
    ∀ i : Slot, cacheRead s.cache i = ⟨0, 0, 0, 0⟩ ∨ pixelHash (cacheRead s.cache i) = i

/-- PIXCNT is 0 before the pixel phase, below NPIX in it and equal to NPIX after it (10_state.md R33, R41). -/
def State.PixcntMatchesPhase (s : State) : Prop :=
  (s.phase = .eHdr ∨ s.phase = .dMagic ∨ s.phase = .dHdr → s.pixcnt = 0#64) ∧
  (s.phase = .ePix ∨ s.phase = .dPix → s.pixcnt.toNat < s.npix) ∧
  (s.phase = .ePad ∨ s.phase = .dPad → s.pixcnt.toNat = s.npix)

/-- A running command has legal arguments (41_encoder.md R95, 42_decoder.md R116). -/
def State.ArgumentsLegal (s : State) : Prop :=
  (s.phase.encoding = true → (s.channels = 3#8 ∨ s.channels = 4#8) ∧ (s.colorspace = 0#8 ∨ s.colorspace = 1#8)) ∧
  (s.phase.decoding = true → s.outCh = 3#8 ∨ s.outCh = 4#8)

/-- No run is pending before the first pixel (10_state.md R45), nor when all pixels are encoded (41_encoder.md R101,
R114). -/
def State.NoPendingRun (s : State) : Prop :=
  s.phase = .eHdr ∨ s.phase = .ePad ∨ s.phase = .dMagic ∨ s.phase = .dHdr → s.run = 0#6

/-- The record of the last command agrees with the phase (10_state.md R24, R43). -/
def State.CommandMatchesPhase (s : State) : Prop :=
  (s.phase.encoding = true → s.command = some .encode) ∧ (s.phase.decoding = true → s.command = some .decode)

/-- All the invariants together. -/
structure State.Inv (s : State) : Prop where
  status : s.StatusMatchesPhase
  run : s.RunInRange
  slots : s.SlotsHoldTheirHash
  pixcnt : s.PixcntMatchesPhase
  args : s.ArgumentsLegal
  pending : s.NoPendingRun
  command : s.CommandMatchesPhase

/-- The header registers and OUT_CH are unchanged (10_state.md R25 to R29). -/
def SameHeader (s t : State) : Prop :=
  t.width = s.width ∧ t.height = s.height ∧ t.channels = s.channels ∧ t.colorspace = s.colorspace ∧ t.outCh = s.outCh

/-- The host's moves, the parameters, the count of reset events and the record of the last command are unchanged. -/
def SameEnvironment (s t : State) : Prop :=
  t.host = s.host ∧ t.cfg = s.cfg ∧ t.resets = s.resets ∧ t.command = s.command

/-- Exactly these bytes were written to OUT, after those already there (20_memory.md R47, R61). -/
def WroteBytes (bytes : List Byte) (s t : State) : Prop :=
  t.out = s.out ++ bytes ∧ t.written = s.written ++ bytes

/-- CACHE[Hash(px)] <- px and no other slot changed (40_hash_cache.md R90). -/
def CacheHolds (px : Pixel) (s t : State) : Prop :=
  ∀ i : Slot, cacheRead t.cache i = if i = pixelHash px then px else cacheRead s.cache i

/-- The raw bytes of a pixel with c channels, 3 or 4, in the order r, g, b, a (20_memory.md R49). -/
def rawPixel (c : Byte) (p : Pixel) : List Byte := if c = 4#8 then [p.r, p.g, p.b, p.a] else [p.r, p.g, p.b]

/-- What every decoder pixel step does for the pixel that becomes PREV, and what it leaves alone, less CACHE and RUN
(42_decoder.md R119, R128, R129). -/
def DecodedPixel (s t : State) : Prop :=
  WroteBytes (rawPixel s.outCh t.prev) s t ∧ t.pixcnt = s.pixcnt + 1 ∧
  t.phase = (if (s.pixcnt + 1).toNat = s.width.toNat * s.height.toNat then .dPad else s.phase) ∧
  t.inp = s.inp ∧ t.status = s.status ∧ SameHeader s t ∧ SameEnvironment s t

/-- OUT_CH is legal and OUT can accept a pixel (10_state.md R29, 20_memory.md R55). -/
def CanEmit (s : State) : Prop := (s.outCh = 3#8 ∨ s.outCh = 4#8) ∧ s.accepts s.outCh.toNat = true

/-- The codec is about to take an encoder pixel step whose pixel, the front of IN, is px: the host makes no move
(41_encoder.md R97). With 3 channels the pixel's alpha is 255. -/
def ReadsPixel (s : State) (px : Pixel) (rest : List Byte) : Prop :=
  s.phase = .ePix ∧ s.host = [] ∧ (s.channels = 3#8 ∧ px.a = 255#8 ∨ s.channels = 4#8) ∧
  s.inp = rawPixel s.channels px ++ rest

/-- What every encoder pixel step does for the pixel px, writing these bytes, and what it leaves alone, less CACHE and RUN
(41_encoder.md R98, R111, R112). -/
def EncodedPixel (px : Pixel) (rest bytes : List Byte) (s t : State) : Prop :=
  WroteBytes bytes s t ∧ t.prev = px ∧ t.pixcnt = s.pixcnt + 1 ∧
  t.phase = (if (s.pixcnt + 1).toNat = s.width.toNat * s.height.toNat then .ePad else .ePix) ∧
  t.inp = rest ∧ t.status = s.status ∧ SameHeader s t ∧ SameEnvironment s t

/-- The byte that flushes a run pending before a different pixel, and nothing when none is pending (41_encoder.md R101). -/
def pendingRun (s : State) : List Byte := if s.run = 0#6 then [] else [BitVec.ofNat 8 (0xc0 + (s.run.toNat - 1))]

/-- The encoder's delta of the three color channels (41_encoder.md R106). -/
def deltasOf (m : DeltaMode) (px prev : Pixel) : Int × Int × Int :=
  (channelDelta m px.r prev.r, channelDelta m px.g prev.g, channelDelta m px.b prev.b)

/-- How many pixels an operation covers (30_encoding.md R66). -/
def coveredPixels : Instr → Nat
  | .index _ => 1
  | .diff _ _ _ => 1
  | .luma _ _ _ => 1
  | .run k => k
  | .rgb _ _ _ => 1
  | .rgba _ _ _ _ => 1

/-- The host issues one ENCODE with legal arguments at rest, IN starts with the image's raw bytes, and OUT accepts every byte
(70_reset_and_hazards.md R153). -/
def StartsEncode (s : State) (w h : BitVec 32) (c cs : Byte) (raw rest : List Byte) : Prop :=
  s.atRest = true ∧ s.host = [.encode w h c cs] ∧ (c = 3#8 ∨ c = 4#8) ∧ (cs = 0#8 ∨ cs = 1#8) ∧
  s.inp = raw ++ rest ∧ raw.length = w.toNat * h.toNat * c.toNat ∧ s.cfg.outCap = none

/-- The host issues one DECODE with a legal argument at rest, IN holds this stream and then more bytes, and OUT accepts every
byte (70_reset_and_hazards.md R153). -/
def StartsDecode (s : State) (oc : Byte) (stream rest : List Byte) : Prop :=
  s.atRest = true ∧ s.host = [.decode oc] ∧ (oc = 3#8 ∨ oc = 4#8) ∧ s.inp = stream ++ rest ∧ s.cfg.outCap = none

end Sys2Proof.Machine
end

