-- ==== Sys2Proof/Certificates/Slice0/Obligations.lean ====
section
/-! DEFINITION. The statements for the provers, from the numbered rules of spec/. -/

open Sys2Proof Sys2Proof.Machine

/-! ### Encoding (30_encoding.md) -/

/-- Decoding the bytes of an operation that has an encoding gives the operation back, whatever follows it
(30_encoding.md R82, R83, R78). -/
def Obligations.DecodeOfEncodeGivesTheOperation : Prop :=
  ∀ (i : Instr) (rest : List Byte), i.WellFormed → decode (encode i ++ rest) = .op i rest

/-- Whatever the decoder reads is well formed and its encoding is exactly the bytes consumed: every byte string has at
most one reading, and none is dropped (30_encoding.md R78, R83). -/
def Obligations.EncodeOfDecodeGivesTheBytes : Prop :=
  ∀ (bytes rest : List Byte) (i : Instr), decode bytes = .op i rest → i.WellFormed ∧ encode i ++ rest = bytes

/-- 30_encoding.md R79: every tag byte has a meaning, by its range, and the slot and run operands are the tag's low bits. -/
def Obligations.EveryTagByteHasItsMeaning : Prop :=
  ∀ (b0 : Byte) (rest : List Byte),
    (b0.toNat ≤ 0x3f → ∃ i : Slot, decode (b0 :: rest) = .op (.index i) rest ∧ i.toNat = b0.toNat) ∧
    (0x40 ≤ b0.toNat ∧ b0.toNat ≤ 0x7f → ∃ dr dg db, decode (b0 :: rest) = .op (.diff dr dg db) rest) ∧
    (0x80 ≤ b0.toNat ∧ b0.toNat ≤ 0xbf →
      ∀ b1, ∃ dg drdg dbdg, decode (b0 :: b1 :: rest) = .op (.luma dg drdg dbdg) rest) ∧
    (0xc0 ≤ b0.toNat ∧ b0.toNat ≤ 0xfd → decode (b0 :: rest) = .op (.run (b0.toNat - 0xc0 + 1)) rest) ∧
    (b0.toNat = 0xfe → ∀ r g b, decode (b0 :: r :: g :: b :: rest) = .op (.rgb r g b) rest) ∧
    (b0.toNat = 0xff → ∀ r g b a, decode (b0 :: r :: g :: b :: a :: rest) = .op (.rgba r g b a) rest)

/-- 30_encoding.md R77: the length of an operation follows from its tag byte alone; with fewer bytes there is no
operation. -/
def Obligations.OperationLengthFollowsFromTheTag : Prop :=
  ∀ (b0 : Byte) (rest : List Byte),
    let n := if b0.toNat = 0xfe then 4 else if b0.toNat = 0xff then 5
      else if 0x80 ≤ b0.toNat ∧ b0.toNat ≤ 0xbf then 2 else 1
    (n ≤ rest.length + 1 → ∃ i, decode (b0 :: rest) = .op i ((b0 :: rest).drop n)) ∧
    (rest.length + 1 < n → ∃ c, decode (b0 :: rest) = .cutShort c)

/-- Words written out bit by bit from 30_encoding.md R70 to R75 decode to the operations they stand for. -/
def Obligations.SampleWordsDecode : Prop :=
  decode [0b00001001#8] = .op (.index 9) [] ∧
  decode [0b01001100#8] = .op (.diff (-2) 1 (-2)) [] ∧
  decode [0b10100000#8, 0b01011000#8] = .op (.luma 0 (-3) 0) [] ∧
  decode [0b11111101#8] = .op (.run 62) [] ∧
  decode [0b11111110#8, 10, 20, 30] = .op (.rgb 10 20 30) [] ∧
  decode [0b11111111#8, 98, 101, 99, 128] = .op (.rgba 98 101 99 128) []

/-! ### hash_function (40_hash_cache.md) -/

/-- 40_hash_cache.md R84: the slot number is the exact weighted sum mod 64. -/
def Obligations.HashIsTheWeightedSumMod64 : Prop :=
  ∀ p : Pixel, (pixelHash p).toNat = (p.r.toNat * 3 + p.g.toNat * 5 + p.b.toNat * 7 + p.a.toNat * 11) % 64

/-- 40_hash_cache.md R85: any unsigned width of 6 or more bits with wrap-around gives the same slot. -/
def Obligations.HashMayBeComputedInAnyWidth : Prop :=
  ∀ (p : Pixel) (w : Nat), 6 ≤ w →
    (p.r.setWidth w * 3 + p.g.setWidth w * 5 + p.b.setWidth w * 7 + p.a.setWidth w * 11 : BitVec w).setWidth 6 = pixelHash p

/-! ### The six operations (42_decoder.md R121 to R129). Each completes for every state whose OUT_CH is legal and whose
OUT can accept the pixel; the whole frame is in DecodedPixel. -/

/-- 42_decoder.md R121: RGB loads three raw channels and inherits alpha; with fewer than 3 operand bytes the step
waits. -/
def Obligations.RgbLoadsThreeChannelsAndInheritsAlpha : Prop :=
  (∀ (r g b : Byte) (rest : List Byte), decode (0xfe#8 :: r :: g :: b :: rest) = .op (.rgb r g b) rest) ∧
  (∀ (s : State) (tail : List Byte), s.phase = .dPix → s.host = [] → s.run = 0 → s.inp = 0xfe#8 :: tail →
    tail.length < 3 → ∀ t, step s ≠ .next t) ∧
  ∀ (r g b : Byte) (s : State), CanEmit s →
    ∃ t, exec (.rgb r g b) s = .next t ∧ t.prev = ⟨r, g, b, s.prev.a⟩ ∧ CacheHolds t.prev s t ∧ t.run = s.run ∧
      DecodedPixel s t

/-- 42_decoder.md R122: RGBA loads four raw channels. -/
def Obligations.RgbaLoadsFourChannels : Prop :=
  (∀ (r g b a : Byte) (rest : List Byte), decode (0xff#8 :: r :: g :: b :: a :: rest) = .op (.rgba r g b a) rest) ∧
  ∀ (r g b a : Byte) (s : State), CanEmit s →
    ∃ t, exec (.rgba r g b a) s = .next t ∧ t.prev = ⟨r, g, b, a⟩ ∧ CacheHolds t.prev s t ∧ t.run = s.run ∧
      DecodedPixel s t

/-- 42_decoder.md R123: INDEX loads the slot verbatim and writes the pixel at its hash: no change when the slot holds a
pixel that hashes to it, slot 0 when it still holds (0,0,0,0). -/
def Obligations.IndexLoadsTheSlotVerbatim : Prop :=
  (∀ (b0 : Byte) (rest : List Byte), b0.toNat ≤ 0x3f →
    ∃ i : Slot, i.toNat = b0.toNat ∧ decode (b0 :: rest) = .op (.index i) rest) ∧
  ∀ (i : Slot) (s : State), CanEmit s →
    ∃ t, exec (.index i) s = .next t ∧ t.prev = cacheRead s.cache i ∧ CacheHolds t.prev s t ∧ t.run = s.run ∧
      DecodedPixel s t ∧ (pixelHash (cacheRead s.cache i) = i → t.cache = s.cache) ∧
      (cacheRead s.cache i = ⟨0, 0, 0, 0⟩ → t.cache = cacheWrite s.cache 0 ⟨0, 0, 0, 0⟩)

/-- 42_decoder.md R124: DIFF adds the three deltas, each the field less 2, mod 256, alpha unchanged. -/
def Obligations.DiffAddsItsDeltasMod256 : Prop :=
  (∀ (b0 : Byte) (rest : List Byte), 0x40 ≤ b0.toNat → b0.toNat ≤ 0x7f →
    decode (b0 :: rest) =
      .op (.diff ((b0.toNat / 16 % 4 : Nat) - 2) ((b0.toNat / 4 % 4 : Nat) - 2) ((b0.toNat % 4 : Nat) - 2)) rest) ∧
  ∀ (dr dg db : Int) (s : State), CanEmit s →
    ∃ t, exec (.diff dr dg db) s = .next t ∧
      (t.prev.r.toNat : Int) = (s.prev.r.toNat + dr) % 256 ∧ (t.prev.g.toNat : Int) = (s.prev.g.toNat + dg) % 256 ∧
      (t.prev.b.toNat : Int) = (s.prev.b.toNat + db) % 256 ∧ t.prev.a = s.prev.a ∧
      CacheHolds t.prev s t ∧ t.run = s.run ∧ DecodedPixel s t

/-- 42_decoder.md R125: LUMA adds dg to green, and dg plus the sub-delta to red and blue, mod 256, alpha unchanged. -/
def Obligations.LumaAddsItsDeltasMod256 : Prop :=
  (∀ (b0 b1 : Byte) (rest : List Byte), 0x80 ≤ b0.toNat → b0.toNat ≤ 0xbf →
    decode (b0 :: b1 :: rest) =
      .op (.luma ((b0.toNat % 64 : Nat) - 32) ((b1.toNat / 16 : Nat) - 8) ((b1.toNat % 16 : Nat) - 8)) rest) ∧
  ∀ (dg drdg dbdg : Int) (s : State), CanEmit s →
    ∃ t, exec (.luma dg drdg dbdg) s = .next t ∧
      (t.prev.g.toNat : Int) = (s.prev.g.toNat + dg) % 256 ∧
      (t.prev.r.toNat : Int) = (s.prev.r.toNat + dg + drdg) % 256 ∧
      (t.prev.b.toNat : Int) = (s.prev.b.toNat + dg + dbdg) % 256 ∧ t.prev.a = s.prev.a ∧
      CacheHolds t.prev s t ∧ t.run = s.run ∧ DecodedPixel s t

/-- 42_decoder.md R126: RUN of the field n sets RUN to n, emits PREV once and does not write the cache. -/
def Obligations.RunSetsTheCounterAndEmitsPrev : Prop :=
  (∀ (b0 : Byte) (rest : List Byte), 0xc0 ≤ b0.toNat → b0.toNat ≤ 0xfd →
    decode (b0 :: rest) = .op (.run (b0.toNat - 0xc0 + 1)) rest) ∧
  ∀ (n : Nat) (s : State), n ≤ 61 → CanEmit s →
    ∃ t, exec (.run (n + 1)) s = .next t ∧ t.run.toNat = n ∧ t.prev = s.prev ∧ t.cache = s.cache ∧ DecodedPixel s t

/-- 42_decoder.md R127: an operation that answers a next state writes CACHE[Hash(px)] for its pixel, and a RUN writes no
slot. -/
def Obligations.EveryOperationButRunWritesTheCache : Prop :=
  ∀ (i : Instr) (s t : State), exec i s = .next t →
    ((∀ k, i ≠ .run k) → CacheHolds t.prev s t) ∧ ((∃ k, i = .run k) → t.cache = s.cache)

/-- A step in D_PIX with no owed repeat runs the decoded operation on the state with its bytes consumed, and passes the
turn when the operation has no move and the host still has moves (42_decoder.md R119; log 6, log 7). -/
def Obligations.StepRunsTheDecodedOperation : Prop :=
  ∀ (s : State) (i : Instr) (rest : List Byte), s.phase = .dPix → s.run = 0 → decode s.inp = .op i rest →
    i.WellFormed ∧
    (s.host = [] → step s = exec i { s with inp := rest }) ∧
    (∀ ms t, s.host = .leave :: ms → exec i { s with inp := rest, host := ms } = .next t → step s = .next t) ∧
    (∀ ms, s.host = .leave :: ms → exec i { s with inp := rest, host := ms } = .fault .waitOutput →
      step s = .next { s with host := ms })

/-- 42_decoder.md R120: an owed repeat decrements RUN and re-emits PREV, reading no byte and touching no slot. -/
def Obligations.RunRepeatReadsNothing : Prop :=
  ∀ s : State, s.phase = .dPix → s.host = [] → 0 < s.run.toNat → CanEmit s →
    ∃ t, step s = .next t ∧ t.run.toNat = s.run.toNat - 1 ∧ t.prev = s.prev ∧ t.cache = s.cache ∧ DecodedPixel s t

/-- A RUN of k pixels takes exactly k pixel steps and its one byte, when the image has k pixels left (42_decoder.md R126,
R120; 30_encoding.md R66). -/
def Obligations.RunOperationCoversItsPixels : Prop :=
  ∀ (s : State) (k : Nat) (rest : List Byte), (Instr.run k).WellFormed → s.phase = .dPix → s.host = [] → s.run = 0 →
    (s.outCh = 3#8 ∨ s.outCh = 4#8) → s.cfg.outCap = none → s.inp = encode (.run k) ++ rest →
    s.pixcnt.toNat + k ≤ s.npix →
    ∃ t, Host.Core.run Sys2Proof.core k s = .next t ∧ t.inp = rest ∧ t.run = 0 ∧ t.prev = s.prev ∧ t.cache = s.cache ∧
      WroteBytes (List.replicate k (rawPixel s.outCh s.prev)).flatten s t ∧ t.pixcnt.toNat = s.pixcnt.toNat + k ∧
      t.phase = if s.pixcnt.toNat + k = s.npix then .dPad else .dPix

/-- 42_decoder.md R130: repeats owed after the last pixel are dropped without error, and the end-marker step reads the
next eight bytes as usual. -/
def Obligations.ResidualRunIsDropped : Prop :=
  ∀ (s : State) (k : Nat) (rest : List Byte), (Instr.run k).WellFormed → s.phase = .dPix → s.host = [] → s.run = 0 →
    s.status = 1#32 → CanEmit s → s.pixcnt.toNat + 1 = s.npix → s.inp = encode (.run k) ++ endMarker ++ rest →
    ∃ t, Host.Core.run Sys2Proof.core 2 s = .next t ∧ t.phase = .done ∧ t.status = 0x06#32 ∧
      WroteBytes (rawPixel s.outCh s.prev) s t ∧ t.run.toNat = k - 1

/-! ### The decoder's frame (42_decoder.md R117, R118, R131; 60_exceptions.md R134, R135) -/

/-- 42_decoder.md R117: exactly four bytes decide. "qoif" leads to the header read; any other four
bytes end the decode at once with VALID = 0, ERR_MAGIC = 1, DONE = 1, BUSY = 0. Nothing is written to OUT and no other
register is written. -/
def Obligations.MagicCheckReadsFourBytesAndDecides : Prop :=
  ∀ (s : State) (m rest : List Byte), s.phase = .dMagic → s.host = [] → s.inp = m ++ rest → m.length = 4 →
    (m = [0x71#8, 0x6f#8, 0x69#8, 0x66#8] → step s = .next { s with inp := rest, phase := .dHdr }) ∧
    (m ≠ [0x71#8, 0x6f#8, 0x69#8, 0x66#8] →
      ∃ t, step s = .next t ∧ t.phase = .done ∧ t.valid = false ∧ t.errMagic = true ∧ t.isDone = true ∧
        t.busy = false ∧ t.errPad = s.errPad ∧ (s.status = 1#32 → t.status = 0x0a#32) ∧
        t = { s with inp := rest, phase := .done, status := t.status })

/-- 42_decoder.md R118: ten bytes are loaded into the header registers, big-endian and unchecked, and the phase is D_PIX or
D_PAD by NPIX. CHANNELS does not change what a decoder pixel step does. -/
def Obligations.HeaderReadLoadsTheRegisters : Prop :=
  (∀ (s : State) (w0 w1 w2 w3 h0 h1 h2 h3 c cs : Byte) (rest : List Byte), s.phase = .dHdr → s.host = [] →
    s.inp = w0 :: w1 :: w2 :: w3 :: h0 :: h1 :: h2 :: h3 :: c :: cs :: rest →
    ∃ t, step s = .next t ∧
      t.width.toNat = w0.toNat * 2 ^ 24 + w1.toNat * 2 ^ 16 + w2.toNat * 2 ^ 8 + w3.toNat ∧
      t.height.toNat = h0.toNat * 2 ^ 24 + h1.toNat * 2 ^ 16 + h2.toNat * 2 ^ 8 + h3.toNat ∧
      t.channels = c ∧ t.colorspace = cs ∧
      t.phase = (if t.width.toNat * t.height.toNat > 0 then .dPix else .dPad) ∧ t.inp = rest ∧
      t.outCh = s.outCh ∧ t.prev = s.prev ∧ t.run = s.run ∧ t.cache = s.cache ∧ t.pixcnt = s.pixcnt ∧
      t.status = s.status ∧ t.out = s.out ∧ t.written = s.written ∧ SameEnvironment s t) ∧
  ∀ (s t : State) (c : Byte), s.phase = .dPix → s.host = [] → step s = .next t →
    step { s with channels := c } = .next { t with channels := c }

/-- 42_decoder.md R131: the eight bytes after the pixels decide VALID and ERR_PAD, and the pixels
on OUT stand. -/
def Obligations.EndMarkerDecidesValidity : Prop :=
  ∀ (s : State) (m rest : List Byte), s.phase = .dPad → s.host = [] → s.inp = m ++ rest → m.length = 8 →
    ∃ t, step s = .next t ∧ t.phase = .done ∧ t.isDone = true ∧ t.busy = false ∧ t.errMagic = s.errMagic ∧
      t.inp = rest ∧ t.out = s.out ∧ t.written = s.written ∧ SameHeader s t ∧ SameEnvironment s t ∧
      t.prev = s.prev ∧ t.run = s.run ∧ t.cache = s.cache ∧ t.pixcnt = s.pixcnt ∧
      (m = [0#8, 0#8, 0#8, 0#8, 0#8, 0#8, 0#8, 1#8] →
        t.valid = true ∧ t.errPad = s.errPad ∧ (s.status = 1#32 → t.status = 0x06#32)) ∧
      (m ≠ [0#8, 0#8, 0#8, 0#8, 0#8, 0#8, 0#8, 1#8] →
        t.valid = false ∧ t.errPad = true ∧ (s.status = 1#32 → t.status = 0x12#32))

/-! ### The encoder (41_encoder.md) -/

/-- 41_encoder.md R96: the header writer puts the 14 header bytes on OUT, reads nothing, and writes PHASE alone. -/
def Obligations.HeaderWriterEmitsFourteenBytes : Prop :=
  ∀ s : State, s.phase = .eHdr → s.host = [] → s.accepts 14 = true →
    step s = .next { s with
      phase := if s.width.toNat * s.height.toNat > 0 then .ePix else .ePad
      out := s.out ++ [0x71#8, 0x6f#8, 0x69#8, 0x66#8,
        BitVec.ofNat 8 (s.width.toNat / 2 ^ 24), BitVec.ofNat 8 (s.width.toNat / 2 ^ 16),
        BitVec.ofNat 8 (s.width.toNat / 2 ^ 8), BitVec.ofNat 8 s.width.toNat,
        BitVec.ofNat 8 (s.height.toNat / 2 ^ 24), BitVec.ofNat 8 (s.height.toNat / 2 ^ 16),
        BitVec.ofNat 8 (s.height.toNat / 2 ^ 8), BitVec.ofNat 8 s.height.toNat, s.channels, s.colorspace]
      written := s.written ++ [0x71#8, 0x6f#8, 0x69#8, 0x66#8,
        BitVec.ofNat 8 (s.width.toNat / 2 ^ 24), BitVec.ofNat 8 (s.width.toNat / 2 ^ 16),
        BitVec.ofNat 8 (s.width.toNat / 2 ^ 8), BitVec.ofNat 8 s.width.toNat,
        BitVec.ofNat 8 (s.height.toNat / 2 ^ 24), BitVec.ofNat 8 (s.height.toNat / 2 ^ 16),
        BitVec.ofNat 8 (s.height.toNat / 2 ^ 8), BitVec.ofNat 8 s.height.toNat, s.channels, s.colorspace] }

/-- 41_encoder.md R97, R111: an encoder pixel step consumes one pixel's bytes, alpha 255 with 3 channels, and that pixel is
PREV afterwards, whichever branch ran. -/
def Obligations.EncoderPixelBecomesPrev : Prop :=
  ∀ s t : State, s.phase = .ePix → s.host = [] → step s = .next t →
    (s.channels = 3#8 → ∃ r g b rest, s.inp = r :: g :: b :: rest ∧ t.inp = rest ∧ t.prev = ⟨r, g, b, 255⟩) ∧
    (s.channels = 4#8 → ∃ r g b a rest, s.inp = r :: g :: b :: a :: rest ∧ t.inp = rest ∧ t.prev = ⟨r, g, b, a⟩)

/-- 41_encoder.md R99: a pixel equal to PREV that neither fills the run nor is the last is only counted. -/
def Obligations.RepeatedPixelIsOnlyCounted : Prop :=
  ∀ (s : State) (px : Pixel) (rest : List Byte), ReadsPixel s px rest → px = s.prev → s.run.toNat < 61 →
    s.pixcnt.toNat + 1 ≠ s.npix →
    ∃ t, step s = .next t ∧ t.run.toNat = s.run.toNat + 1 ∧ t.cache = s.cache ∧ EncodedPixel px rest [] s t

/-- 41_encoder.md R100: the 62nd repeat, or a repeat on the last pixel, writes one RUN byte and clears RUN. -/
def Obligations.FullOrLastRunIsFlushed : Prop :=
  ∀ (s : State) (px : Pixel) (rest : List Byte), ReadsPixel s px rest → px = s.prev → s.run.toNat ≤ 61 →
    (s.run.toNat = 61 ∨ s.pixcnt.toNat + 1 = s.npix) → s.accepts 1 = true →
    ∃ t b, step s = .next t ∧ b.toNat = 0xc0 + s.run.toNat ∧ t.run = 0 ∧ t.cache = s.cache ∧
      EncodedPixel px rest [b] s t

/-- 41_encoder.md R101: before a different pixel a pending run is written first, then exactly the bytes the same step
writes with no run pending. -/
def Obligations.PendingRunIsFlushedFirst : Prop :=
  ∀ (s : State) (px : Pixel) (rest : List Byte), ReadsPixel s px rest → px ≠ s.prev → 0 < s.run.toNat →
    s.run.toNat ≤ 61 → s.accepts 6 = true →
    ∃ t u b ops, step s = .next t ∧ step { s with run := 0 } = .next u ∧ b.toNat = 0xc0 + (s.run.toNat - 1) ∧
      EncodedPixel px rest ops { s with run := 0 } u ∧ EncodedPixel px rest (b :: ops) s t ∧ t.run = 0 ∧
      t.cache = u.cache

/-- 41_encoder.md R104: a cache hit is written as INDEX, before any other choice, and the cache is not written. Here and
in the next four statements a run pending before the pixel is written first (R101). -/
def Obligations.CacheHitIsWrittenAsIndex : Prop :=
  ∀ (s : State) (px : Pixel) (rest : List Byte), ReadsPixel s px rest → px ≠ s.prev → s.run.toNat ≤ 61 →
    s.accepts ((pendingRun s).length + 1) = true → cacheRead s.cache (pixelHash px) = px →
    ∃ t b, step s = .next t ∧ b.toNat = (pixelHash px).toNat ∧ t.run = 0 ∧ t.cache = s.cache ∧
      EncodedPixel px rest (pendingRun s ++ [b]) s t

/-- 41_encoder.md R107: on a miss a changed alpha is written as RGBA, whatever the color deltas. -/
def Obligations.ChangedAlphaIsWrittenAsRgba : Prop :=
  ∀ (s : State) (px : Pixel) (rest : List Byte), ReadsPixel s px rest → px ≠ s.prev → s.run.toNat ≤ 61 →
    s.accepts ((pendingRun s).length + 5) = true → cacheRead s.cache (pixelHash px) ≠ px → px.a ≠ s.prev.a →
    ∃ t, step s = .next t ∧ t.run = 0 ∧ CacheHolds px s t ∧
      EncodedPixel px rest (pendingRun s ++ [0xff#8, px.r, px.g, px.b, px.a]) s t

/-- 41_encoder.md R108: on a miss with unchanged alpha, three deltas in [-2, 1] are written as DIFF. -/
def Obligations.SmallDeltasAreWrittenAsDiff : Prop :=
  ∀ (s : State) (px : Pixel) (rest : List Byte) (dr dg db : Int), ReadsPixel s px rest → px ≠ s.prev → s.run.toNat ≤ 61 →
    s.accepts ((pendingRun s).length + 1) = true → cacheRead s.cache (pixelHash px) ≠ px → px.a = s.prev.a →
    deltasOf s.cfg.deltaMode px s.prev = (dr, dg, db) →
    -2 ≤ dr ∧ dr ≤ 1 → -2 ≤ dg ∧ dg ≤ 1 → -2 ≤ db ∧ db ≤ 1 →
    ∃ t b, step s = .next t ∧ (b.toNat : Int) = 0x40 + (dr + 2) * 16 + (dg + 2) * 4 + (db + 2) ∧ t.run = 0 ∧
      CacheHolds px s t ∧ EncodedPixel px rest (pendingRun s ++ [b]) s t

/-- 41_encoder.md R109: where DIFF does not fit and green is in [-32, 31] and both sub-deltas in [-8, 7], LUMA. -/
def Obligations.GreenBiasedDeltasAreWrittenAsLuma : Prop :=
  ∀ (s : State) (px : Pixel) (rest : List Byte) (dr dg db : Int), ReadsPixel s px rest → px ≠ s.prev → s.run.toNat ≤ 61 →
    s.accepts ((pendingRun s).length + 2) = true → cacheRead s.cache (pixelHash px) ≠ px → px.a = s.prev.a →
    deltasOf s.cfg.deltaMode px s.prev = (dr, dg, db) →
    ¬ ((-2 ≤ dr ∧ dr ≤ 1) ∧ (-2 ≤ dg ∧ dg ≤ 1) ∧ (-2 ≤ db ∧ db ≤ 1)) →
    -32 ≤ dg ∧ dg ≤ 31 → -8 ≤ dr - dg ∧ dr - dg ≤ 7 → -8 ≤ db - dg ∧ db - dg ≤ 7 →
    ∃ t b0 b1, step s = .next t ∧ (b0.toNat : Int) = 0x80 + (dg + 32) ∧
      (b1.toNat : Int) = (dr - dg + 8) * 16 + (db - dg + 8) ∧ t.run = 0 ∧ CacheHolds px s t ∧
      EncodedPixel px rest (pendingRun s ++ [b0, b1]) s t

/-- 41_encoder.md R110: where neither fits, the RGB literal. -/
def Obligations.OtherPixelsAreWrittenAsRgb : Prop :=
  ∀ (s : State) (px : Pixel) (rest : List Byte) (dr dg db : Int), ReadsPixel s px rest → px ≠ s.prev → s.run.toNat ≤ 61 →
    s.accepts ((pendingRun s).length + 4) = true → cacheRead s.cache (pixelHash px) ≠ px → px.a = s.prev.a →
    deltasOf s.cfg.deltaMode px s.prev = (dr, dg, db) →
    ¬ ((-2 ≤ dr ∧ dr ≤ 1) ∧ (-2 ≤ dg ∧ dg ≤ 1) ∧ (-2 ≤ db ∧ db ≤ 1)) →
    ¬ ((-32 ≤ dg ∧ dg ≤ 31) ∧ (-8 ≤ dr - dg ∧ dr - dg ≤ 7) ∧ (-8 ≤ db - dg ∧ db - dg ≤ 7)) →
    ∃ t, step s = .next t ∧ t.run = 0 ∧ CacheHolds px s t ∧
      EncodedPixel px rest (pendingRun s ++ [0xfe#8, px.r, px.g, px.b]) s t

/-- 41_encoder.md R106: under WRAP8 the delta is the one int of [-128, 127] congruent to the difference mod 256, under
WIDENED it is the difference; and a further wrap of the sub-deltas to 8 bits would change no outcome of the LUMA test. -/
def Obligations.DeltaModesAndTheLumaTest : Prop :=
  (∀ c q : Byte, -128 ≤ channelDelta .wrap8 c q ∧ channelDelta .wrap8 c q ≤ 127 ∧
    (channelDelta .wrap8 c q - ((c.toNat : Int) - q.toNat)) % 256 = 0) ∧
  (∀ c q : Byte, channelDelta .widened c q = (c.toNat : Int) - q.toNat) ∧
  ∀ px q : Pixel, ∀ dr dg db : Int, deltasOf .wrap8 px q = (dr, dg, db) →
    fitsLuma dr dg db =
      (inRange (-32) 31 dg && inRange (-8) 7 (sext8 (wrap8 (dr - dg))) && inRange (-8) 7 (sext8 (wrap8 (db - dg))))

/-- 41_encoder.md R113: the end-marker writer puts the eight bytes on OUT and ends the command with VALID = 1. -/
def Obligations.EndMarkerWriterFinishesValid : Prop :=
  ∀ s : State, s.phase = .ePad → s.host = [] → s.accepts 8 = true →
    ∃ t, step s = .next t ∧ WroteBytes [0#8, 0#8, 0#8, 0#8, 0#8, 0#8, 0#8, 1#8] s t ∧ t.phase = .done ∧
      t.valid = true ∧ t.busy = false ∧ t.isDone = true ∧ t.errMagic = s.errMagic ∧ t.errPad = s.errPad ∧
      (s.status = 1#32 → t.status = 0x06#32) ∧ SameHeader s t ∧ t.inp = s.inp ∧ SameEnvironment s t ∧
      t.prev = s.prev ∧ t.run = s.run ∧ t.cache = s.cache ∧ t.pixcnt = s.pixcnt

/-- 60_exceptions.md R137: no step of an ENCODE sets an error bit, and one that reaches DONE sets VALID. -/
def Obligations.EncoderRaisesNoError : Prop :=
  ∀ s t : State, s.host = [] → s.phase.encoding = true → step s = .next t →
    t.errMagic = s.errMagic ∧ t.errPad = s.errPad ∧ (t.phase = .done → t.valid = true)

/-! ### Commands and the host (10_state.md section 2, 60_exceptions.md R138, R139, 70_reset_and_hazards.md) -/

/-- 41_encoder.md R95: at rest an ENCODE with legal arguments writes the argument registers, applies every command start
value and goes to E_HDR, and one with other arguments is refused. -/
def Obligations.EncodeAcceptanceStartsTheCommand : Prop :=
  ∀ (s : State) (w h : BitVec 32) (c cs : Byte) (ms : List HostMove), s.phase = .idle ∨ s.phase = .done →
    s.host = .encode w h c cs :: ms →
    (¬ ((c = 3#8 ∨ c = 4#8) ∧ (cs = 0#8 ∨ cs = 1#8)) → step s = .refused .encodeArgs) ∧
    ((c = 3#8 ∨ c = 4#8) → (cs = 0#8 ∨ cs = 1#8) →
      ∃ t, step s = .next t ∧ t.width = w ∧ t.height = h ∧ t.channels = c ∧ t.colorspace = cs ∧ t.outCh = s.outCh ∧
        (∀ i, cacheRead t.cache i = ⟨0, 0, 0, 0⟩) ∧ t.prev = s.cfg.prevInit ∧ t.run = 0 ∧ t.pixcnt = 0 ∧
        t.status = 1#32 ∧ t.phase = .eHdr ∧ t.command = some .encode ∧ t.inp = s.inp ∧ t.out = s.out ∧ t.written = [] ∧ t.host = ms ∧
        t.cfg = s.cfg ∧ t.resets = s.resets)

/-- 42_decoder.md R116: at rest a DECODE with a legal argument writes OUT_CH, applies every command start value and goes to
D_MAGIC, the header registers unchanged, and one with another argument is refused. -/
def Obligations.DecodeAcceptanceStartsTheCommand : Prop :=
  ∀ (s : State) (oc : Byte) (ms : List HostMove), s.phase = .idle ∨ s.phase = .done → s.host = .decode oc :: ms →
    (¬ (oc = 3#8 ∨ oc = 4#8) → step s = .refused .decodeArgs) ∧
    ((oc = 3#8 ∨ oc = 4#8) →
      ∃ t, step s = .next t ∧ t.outCh = oc ∧ t.width = s.width ∧ t.height = s.height ∧ t.channels = s.channels ∧
        t.colorspace = s.colorspace ∧
        (∀ i, cacheRead t.cache i = ⟨0, 0, 0, 0⟩) ∧ t.prev = s.cfg.prevInit ∧ t.run = 0 ∧ t.pixcnt = 0 ∧
        t.status = 1#32 ∧ t.phase = .dMagic ∧ t.command = some .decode ∧ t.inp = s.inp ∧ t.out = s.out ∧ t.written = [] ∧ t.host = ms ∧
        t.cfg = s.cfg ∧ t.resets = s.resets)

/-- 60_exceptions.md R138: exactly the commands with illegal arguments and the commands issued while one is running are
refused, and no other step is. That a running command refuses before the arguments are looked at is the model's choice
(log 8). -/
def Obligations.OnlyIllegalCommandsAreRefused : Prop :=
  (∀ (s : State) (w h : BitVec 32) (c cs : Byte) (ms : List HostMove), s.host = .encode w h c cs :: ms →
    (step s = .refused .busy ↔ s.phase ≠ .idle ∧ s.phase ≠ .done) ∧
    (step s = .refused .encodeArgs ↔
      (s.phase = .idle ∨ s.phase = .done) ∧ ¬ ((c = 3#8 ∨ c = 4#8) ∧ (cs = 0#8 ∨ cs = 1#8)))) ∧
  (∀ (s : State) (oc : Byte) (ms : List HostMove), s.host = .decode oc :: ms →
    (step s = .refused .busy ↔ s.phase ≠ .idle ∧ s.phase ≠ .done) ∧
    (step s = .refused .decodeArgs ↔ (s.phase = .idle ∨ s.phase = .done) ∧ ¬ (oc = 3#8 ∨ oc = 4#8))) ∧
  ∀ (s : State) (r : Refusal), step s = .refused r →
    ∃ m ms, s.host = m :: ms ∧ ((∃ w h c cs, m = .encode w h c cs) ∨ ∃ oc, m = .decode oc)

/-- 10_state.md R38 and 70_reset_and_hazards.md R152: a command start sets CACHE, PREV, RUN, PIXCNT and STATUS to their start
values, and nothing of what the previous command left in them changes what it does. -/
def Obligations.NothingPersistsAcrossCommands : Prop :=
  ∀ (s : State) (m : HostMove) (ms : List HostMove) (phase : Phase) (cache : Cache) (prev : Pixel) (run : BitVec 6)
    (pixcnt : BitVec 64) (status : BitVec 32) (written : List Byte) (command : Option Command),
    (s.phase = .idle ∨ s.phase = .done) → (phase = .idle ∨ phase = .done) → s.host = m :: ms →
    ((∃ w h c cs, m = .encode w h c cs) ∨ ∃ oc, m = .decode oc) →
    step { s with
      phase := phase, cache := cache, prev := prev, run := run, pixcnt := pixcnt, status := status,
      written := written, command := command } = step s ∧
    ∀ t, step s = .next t → (∀ i, cacheRead t.cache i = ⟨0, 0, 0, 0⟩) ∧ t.prev = s.cfg.prevInit ∧ t.run = 0 ∧
      t.pixcnt = 0 ∧ t.busy = true ∧ t.isDone = false ∧ t.valid = false ∧ t.errMagic = false ∧ t.errPad = false

/-- 20_memory.md R54, 60_exceptions.md R139, R150: a step that needs more bytes than IN holds has no move, and in IDLE and
DONE no step is enabled; nothing changes, and with no host move left the machine is stuck (the form of the wait is the
model's, log 7). -/
def Obligations.ShortInputAndRestHaveNoMove : Prop :=
  ∀ s : State,
    ((s.phase = .ePix ∧ s.inp.length < s.channels.toNat ∨ s.phase = .dMagic ∧ s.inp.length < 4 ∨
        s.phase = .dHdr ∧ s.inp.length < 10 ∨ s.phase = .dPad ∧ s.inp.length < 8 ∨
        s.phase = .dPix ∧ s.run = 0 ∧ ∀ i rest, decode s.inp ≠ .op i rest) →
      (s.host = [] → step s = .fault .waitInput) ∧
      ∀ ms, s.host = .leave :: ms → step s = .next { s with host := ms }) ∧
    (s.phase = .idle ∨ s.phase = .done →
      (s.host = [] → step s = .fault .atRest) ∧ ∀ ms, s.host = .leave :: ms → step s = .next { s with host := ms })

/-- 20_memory.md R55: a step whose bytes OUT cannot accept has no move, in every phase that writes: the header writer, the
encoder's pixel step with the bytes it would write to an unbounded OUT, the end-marker writer and the decoder's pixel step
(the form of the wait is the model's, log 3 and log 7). -/
def Obligations.FullOutputHasNoMove : Prop :=
  ∀ s : State,
    (s.phase = .eHdr ∧ s.accepts 14 = false ∨ s.phase = .ePad ∧ s.accepts 8 = false ∨
      (s.phase = .ePix ∧ ∃ u bytes, step { s with host := [], cfg := { s.cfg with outCap := none } } = .next u ∧
        WroteBytes bytes s u ∧ s.accepts bytes.length = false) ∨
      s.phase = .dPix ∧ (s.outCh = 3#8 ∨ s.outCh = 4#8) ∧ s.accepts s.outCh.toNat = false ∧
        (0 < s.run.toNat ∨ ∃ i rest, decode s.inp = .op i rest)) →
    (s.host = [] → step s = .fault .waitOutput) ∧
    ∀ ms, s.host = .leave :: ms → step s = .next { s with host := ms }

/-- 70_reset_and_hazards.md R151: the reset event sets PHASE = IDLE and STATUS = 0 and touches neither stream; of the other
registers nothing is said. -/
def Obligations.HardwareResetGoesIdle : Prop :=
  ∀ (s : State) (ms : List HostMove), s.host = .reset :: ms →
    ∃ t, step s = .next t ∧ t.phase = .idle ∧ t.status = 0 ∧ t.inp = s.inp ∧ t.out = s.out ∧ t.host = ms ∧ t.cfg = s.cfg

/-- 20_memory.md R47: the host extends IN at its end and removes from the front of OUT, and nothing else changes. That a take
of more bytes than OUT holds removes what it holds is the model's choice (log 20). -/
def Obligations.HostMovesBytesInOrder : Prop :=
  (∀ (s : State) (bytes : List Byte) (ms : List HostMove), s.host = .supply bytes :: ms →
    step s = .next { s with inp := s.inp ++ bytes, host := ms }) ∧
  ∀ (s : State) (n : Nat) (ms : List HostMove), s.host = .take n :: ms →
    step s = .next { s with out := s.out.drop n, host := ms }

/-! ### Whole-machine rules -/

/-- 10_state.md R41: the phase transitions of every step but the reset event's (R151), and there are no others. -/
def Obligations.PhasesMoveByTheTable : Prop :=
  ∀ s t : State, s.PixcntMatchesPhase → step s = .next t → s.host.head? ≠ some .reset →
    t.phase = s.phase ∧ ((∃ m ms, s.host = m :: ms ∧ ∀ w h c cs oc, m ≠ .encode w h c cs ∧ m ≠ .decode oc) ∨
      (s.phase = .ePix ∨ s.phase = .dPix) ∧ t.pixcnt.toNat < t.npix) ∨
    ((s.phase = .idle ∨ s.phase = .done) ∧ (∃ w h c cs ms, s.host = .encode w h c cs :: ms) ∧ t.phase = .eHdr) ∨
    (s.phase = .eHdr ∧ t.phase = .ePix ∧ 0 < s.npix) ∨
    (s.phase = .eHdr ∧ t.phase = .ePad ∧ s.npix = 0) ∨
    (s.phase = .ePix ∧ t.phase = .ePad ∧ t.pixcnt.toNat = t.npix) ∨
    (s.phase = .ePad ∧ t.phase = .done ∧ t.valid = true) ∨
    ((s.phase = .idle ∨ s.phase = .done) ∧ (∃ oc ms, s.host = .decode oc :: ms) ∧ t.phase = .dMagic) ∨
    (s.phase = .dMagic ∧ t.phase = .dHdr ∧ s.inp.take 4 = magicBytes) ∨
    (s.phase = .dMagic ∧ t.phase = .done ∧ s.inp.take 4 ≠ magicBytes ∧ t.valid = false ∧ t.errMagic = true) ∨
    (s.phase = .dHdr ∧ t.phase = .dPix ∧ 0 < t.npix) ∨
    (s.phase = .dHdr ∧ t.phase = .dPad ∧ t.npix = 0) ∨
    (s.phase = .dPix ∧ t.phase = .dPad ∧ t.pixcnt.toNat = t.npix) ∨
    (s.phase = .dPad ∧ t.phase = .done ∧ (t.valid = true ↔ s.inp.take 8 = endMarker) ∧
      (s.inp.take 8 ≠ endMarker → t.errPad = true))

/-- 10_state.md R25, R26: WIDTH and HEIGHT are written by ENCODE and by the decoder's header read and by nothing else (but
a reset event, which leaves them unspecified, R44). -/
def Obligations.OnlyEncodeAndTheHeaderReadWriteWidthAndHeight : Prop :=
  ∀ s t : State, step s = .next t → t.width ≠ s.width ∨ t.height ≠ s.height →
    (∃ w h c cs ms, s.host = .encode w h c cs :: ms ∧ t.width = w ∧ t.height = h) ∨
    s.phase = .dHdr ∧ t.phase ≠ .dHdr ∧ (s.host = [] ∨ ∃ ms, s.host = .leave :: ms) ∨
    ∃ ms, s.host = .reset :: ms

/-- 20_memory.md R53, R61, R64: a codec step removes bytes from the front of IN only, appends to OUT only, and changes
neither otherwise; so it never reads a byte it wrote. -/
def Obligations.StreamsMoveInOrder : Prop :=
  ∀ s t : State, s.host = [] → step s = .next t →
    ∃ n bytes, n ≤ s.inp.length ∧ n ≤ 10 ∧ t.inp = s.inp.drop n ∧ bytes.length ≤ 14 ∧ WroteBytes bytes s t

/-- 10_state.md R31: between the steps of a command RUN is in [0, 61]; 62 exists only inside the step that flushes it
(90_conflicts.md C5). -/
def Obligations.RunStaysBelowSixtyTwo : Prop :=
  ∀ s t : State, s.RunInRange → step s = .next t → t.RunInRange

/-- 40_hash_cache.md R94: at every step boundary of a command every slot holds (0,0,0,0) or a pixel that hashes to it. -/
def Obligations.SlotsKeepTheirHash : Prop :=
  ∀ s t : State, s.SlotsHoldTheirHash → step s = .next t → t.SlotsHoldTheirHash

/-- 10_state.md R34, R35: STATUS always agrees with PHASE, its reserved bits read 0, and ERR_MAGIC and ERR_PAD are never
both 1. -/
def Obligations.StatusAgreesWithPhase : Prop :=
  ∀ s t : State, s.StatusMatchesPhase → step s = .next t →
    t.StatusMatchesPhase ∧ ¬ (t.errMagic = true ∧ t.errPad = true)

/-- All the invariants of Safety.lean are kept by every step of the host and of the codec. -/
def Obligations.EveryStepKeepsTheInvariants : Prop :=
  ∀ s t : State, s.Inv → step s = .next t → t.Inv

/-- 10_state.md R44: after reset PHASE is IDLE and STATUS is 0, and the invariants hold. -/
def Obligations.ResetMeetsTheInvariants : Prop :=
  State.reset.phase = .idle ∧ State.reset.status = 0 ∧ State.reset.Inv

/-- From a state that meets the invariants a step stops only where the spec has the block wait, rest or refuse; the
model's own fault is never raised (60_exceptions.md R133; log 7, log 12). -/
def Obligations.OnlyWaitsAndRefusalsStopAStep : Prop :=
  ∀ s : State, s.Inv → step s ≠ .fault .illegalChannels ∧
    (step s = .fault .waitInput ∨ step s = .fault .waitOutput ∨ step s = .fault .atRest → s.host = [])

/-- 70_reset_and_hazards.md R154: the decoder does not depend on DELTA_MODE. -/
def Obligations.DecoderIgnoresDeltaMode : Prop :=
  ∀ (s t : State) (m : DeltaMode), s.host = [] → s.phase.decoding = true → step s = .next t →
    step { s with cfg := { s.cfg with deltaMode := m } } = .next { t with cfg := { t.cfg with deltaMode := m } }

/-- The operation tag_mux selects for a pixel, under either DELTA_MODE, has an encoding and makes a decoder that holds the
same PREV and CACHE produce exactly that pixel and the encoder's next CACHE (41_encoder.md R103 to R110, 42_decoder.md
R121 to R127). -/
def Obligations.SelectedOperationRebuildsThePixel : Prop :=
  ∀ (m : DeltaMode) (px : Pixel) (s : State), CanEmit s →
    (tagMux m px s.prev s.cache).WellFormed ∧
    ∃ t, exec (tagMux m px s.prev s.cache) s = .next t ∧ t.prev = px ∧ t.cache = tagMuxCache px s.cache ∧
      t.run = s.run ∧ DecodedPixel s t

/-! ### Whole commands -/

/-- An ENCODE whose input is there and whose output is accepted reaches DONE with VALID in NPIX + 2 codec steps, and what it
wrote is the header, operations that cover exactly NPIX pixels, and the end marker; its observation is those bytes and
STATUS, without the header registers (70_reset_and_hazards.md R160; 20_memory.md R58; 41_encoder.md R114; 10_state.md R43). -/
def Obligations.EncodeWritesOneWholeFrame : Prop :=
  ∀ (s : State) (w h : BitVec 32) (c cs : Byte) (raw rest : List Byte), StartsEncode s w h c cs raw rest →
    ∃ (t : State) (ops : List Instr), Host.Core.run Sys2Proof.core (w.toNat * h.toNat + 3) s = .next t ∧ t.phase = .done ∧ t.status = 0x06#32 ∧
      t.written = encodeHeader w h c cs ++ ops.flatMap encode ++ endMarker ∧
      (∀ i ∈ ops, i.WellFormed) ∧ (ops.map coveredPixels).sum = w.toNat * h.toNat ∧ t.run = 0 ∧
      t.observation = some ⟨t.written, 0x06#32, none⟩

/-- The length of the encoded stream (41_encoder.md R114(e)). -/
def Obligations.EncodedLengthIsBounded : Prop :=
  ∀ (s : State) (w h : BitVec 32) (c cs : Byte) (raw rest : List Byte), StartsEncode s w h c cs raw rest →
    ∃ t, Host.Core.run Sys2Proof.core (w.toNat * h.toNat + 3) s = .next t ∧ t.phase = .done ∧
      22 + (w.toNat * h.toNat + 61) / 62 ≤ t.written.length ∧ t.written.length ≤ 22 + 5 * (w.toNat * h.toNat)

/-- More than 62 pixels all equal to PREV_INIT are exactly ceil(NPIX/62) RUN operations (41_encoder.md R114(f)). -/
def Obligations.UniformImageIsRunsOnly : Prop :=
  ∀ (s : State) (w h : BitVec 32) (c cs : Byte) (rest : List Byte),
    StartsEncode s w h c cs (List.replicate (w.toNat * h.toNat) (rawPixel c s.cfg.prevInit)).flatten rest →
    (c = 3#8 → s.cfg.prevInit.a = 255#8) → 62 < w.toNat * h.toNat →
    ∃ t, Host.Core.run Sys2Proof.core (w.toNat * h.toNat + 3) s = .next t ∧ t.phase = .done ∧
      t.written = encodeHeader w h c cs ++ List.replicate (w.toNat * h.toNat / 62) 0xfd#8 ++
      (if w.toNat * h.toNat % 62 = 0 then [] else [BitVec.ofNat 8 (0xc0 + (w.toNat * h.toNat % 62 - 1))]) ++ endMarker

/-- The bytes an ENCODE writes depend on PREV_INIT, DELTA_MODE, the arguments and the pixel bytes alone
(41_encoder.md R115). -/
def Obligations.EncodedBytesDependOnTheImageAlone : Prop :=
  ∀ (s s' : State) (w h : BitVec 32) (c cs : Byte) (raw rest rest' : List Byte),
    StartsEncode s w h c cs raw rest → StartsEncode s' w h c cs raw rest' →
    s'.cfg.prevInit = s.cfg.prevInit → s'.cfg.deltaMode = s.cfg.deltaMode →
    ∃ t t', Host.Core.run Sys2Proof.core (w.toNat * h.toNat + 3) s = .next t ∧
      Host.Core.run Sys2Proof.core (w.toNat * h.toNat + 3) s' = .next t' ∧ t.phase = .done ∧ t'.phase = .done ∧
      t'.written = t.written

/-- A started command takes a bounded number of codec steps: NPIX + 2 for ENCODE and NPIX + 3 for DECODE
(70_reset_and_hazards.md R160). -/
def Obligations.CommandsTakeBoundedSteps : Prop :=
  ∀ (s t : State) (n : Nat), s.host = [] → s.PixcntMatchesPhase → Host.Core.run Sys2Proof.core n s = .next t →
    (s.phase = .eHdr → n ≤ t.npix + 2) ∧ (s.phase = .dMagic → n ≤ t.npix + 3)

/-- The round trip: a DECODE of what an ENCODE wrote, under the same PREV_INIT and any DELTA_MODE, writes exactly the
original pixel bytes, ends with VALID = 1 and recovers the header, which its observation shows (42_decoder.md R132;
10_state.md R43). -/
def Obligations.DecodeOfEncodeIsTheImage : Prop :=
  ∀ (e e' d : State) (w h : BitVec 32) (c cs : Byte) (raw restE restD : List Byte),
    StartsEncode e w h c cs raw restE → Host.Core.run Sys2Proof.core (w.toNat * h.toNat + 3) e = .next e' →
    StartsDecode d c e'.written restD → d.cfg.prevInit = e.cfg.prevInit →
    ∃ d', Host.Core.run Sys2Proof.core (w.toNat * h.toNat + 4) d = .next d' ∧ d'.phase = .done ∧ d'.status = 0x06#32 ∧
      d'.written = raw ∧ d'.width = w ∧ d'.height = h ∧ d'.channels = c ∧ d'.colorspace = cs ∧
      d'.observation = some ⟨raw, 0x06#32, some (w, h, c, cs)⟩

/-- The lockstep behind the round trip: after each prefix of k pixels the encoder and the decoder hold the same CACHE and
PREV (00_scope.md R22, 42_decoder.md R132). -/
def Obligations.EncoderAndDecoderStayInLockstep : Prop :=
  ∀ (e e' d : State) (w h : BitVec 32) (c cs : Byte) (raw restE restD : List Byte) (k : Nat),
    StartsEncode e w h c cs raw restE → Host.Core.run Sys2Proof.core (w.toNat * h.toNat + 3) e = .next e' →
    StartsDecode d c e'.written restD → d.cfg.prevInit = e.cfg.prevInit → k ≤ w.toNat * h.toNat →
    ∃ ek dk, Host.Core.run Sys2Proof.core (k + 2) e = .next ek ∧ Host.Core.run Sys2Proof.core (k + 3) d = .next dk ∧
      ek.cache = dk.cache ∧ ek.prev = dk.prev
end

