-- ==== Sys2Proof/Laws/Encoding.lean ====
section
/-! SUPPORT. The fields of the operation formats are read back where they were packed (30_encoding.md R70 to R73), and
which bytes a tag class asks for (R77). -/

namespace Sys2Proof

theorem unbias_biasField {w : Nat} (bias : Nat) (d : Int) (lo : 0 ≤ d + bias) (hi : d + bias < 2 ^ w) :
    unbias bias (biasField w bias d) = d := by
  have : ((biasField w bias d).toNat : Int) = d + bias := by
    simp only [biasField, BitVec.toNat_ofInt]
    rw [Int.toNat_of_nonneg (Int.emod_nonneg _ (by positivity)), Int.emod_eq_of_lt lo (by exact_mod_cast hi)]
  simp [unbias, this]

theorem biasField_unbias {w : Nat} (bias : Nat) (v : BitVec w) : biasField w bias (unbias bias v) = v := by
  simp [biasField, unbias]

theorem tagClass_index (i : Slot) : tagClass (0b00#2 ++ i) = .index := by
  revert i; decide

theorem tagClass_diff (r g b : BitVec 2) : tagClass (0b01#2 ++ r ++ g ++ b) = .diff := by
  revert r g b; decide

theorem tagClass_luma (g : BitVec 6) : tagClass (0b10#2 ++ g) = .luma := by
  revert g; decide

theorem slot_of_index_byte (i : Slot) : (0b00#2 ++ i : BitVec 8).extractLsb' 0 6 = i := by
  revert i; decide

theorem red_of_diff_byte (r g b : BitVec 2) : (0b01#2 ++ r ++ g ++ b : BitVec 8).extractLsb' 4 2 = r := by
  revert r g b; decide

theorem green_of_diff_byte (r g b : BitVec 2) : (0b01#2 ++ r ++ g ++ b : BitVec 8).extractLsb' 2 2 = g := by
  revert r g b; decide

theorem blue_of_diff_byte (r g b : BitVec 2) : (0b01#2 ++ r ++ g ++ b : BitVec 8).extractLsb' 0 2 = b := by
  revert r g b; decide

theorem green_of_luma_byte (g : BitVec 6) : (0b10#2 ++ g : BitVec 8).extractLsb' 0 6 = g := by
  revert g; decide

theorem high_nibble (x y : BitVec 4) : (x ++ y : BitVec 8).extractLsb' 4 4 = x := by
  revert x y; decide

theorem low_nibble (x y : BitVec 4) : (x ++ y : BitVec 8).extractLsb' 0 4 = y := by
  revert x y; decide

theorem count_of_run_byte (n : BitVec 6) : (0b11#2 ++ n : BitVec 8).extractLsb' 0 6 = n := by
  revert n; decide

/-- The two codes a run of 63 or 64 pixels would have are the literals' tags (30_encoding.md R73). -/
theorem tagClass_run (n : BitVec 6) (h : n.toNat ≤ 61) : tagClass (0b11#2 ++ n) = .run := by
  revert n; decide

theorem u32_of_its_bytes (v : BitVec 32) :
    u32OfBytes (v.extractLsb' 24 8) (v.extractLsb' 16 8) (v.extractLsb' 8 8) (v.extractLsb' 0 8) = v := by
  apply BitVec.eq_of_getLsbD_eq
  intro i hi
  change BitVec.getLsbD (w := 8 + 8 + 8 + 8) _ i = _
  simp only [u32OfBytes, BitVec.getLsbD_append, BitVec.getLsbD_extractLsb']
  have h0 : 0 + i = i := by omega
  split_ifs with h1 h2 h3
  · rw [decide_eq_true h1, Bool.true_and, h0]
  · rw [decide_eq_true h2, Bool.true_and, show 8 + (i - 8) = i by omega]
  · rw [decide_eq_true h3, Bool.true_and, show 16 + (i - 8 - 8) = i by omega]
  · rw [decide_eq_true (show i - 8 - 8 - 8 < 8 by omega), Bool.true_and, show 24 + (i - 8 - 8 - 8) = i by omega]

@[simp] theorem length_bytesOfU32 (v : BitVec 32) : (bytesOfU32 v).length = 4 := rfl

@[simp] theorem length_encodeHeader (w h : BitVec 32) (c cs : Byte) : (encodeHeader w h c cs).length = 14 := rfl

@[simp] theorem length_endMarker : endMarker.length = 8 := rfl

/-- The encoder writes as many bytes as the tag's class says (30_encoding.md R77). -/
theorem length_encode (i : Instr) : (encode i).length = i.tag.length := by
  cases i <;> rfl

/-- A tag is cut short under its own class, and only when operand bytes are missing (30_encoding.md R77). -/
theorem decodeTagged_cutShort (b0 : Byte) (rest : List Byte) (c c' : TagClass)
    (h : decodeTagged b0 rest c = .cutShort c') : c' = c ∧ rest.length + 1 < c.length := by
  cases c
  case luma => rcases rest with _ | ⟨b1, rest⟩ <;> simp_all [decodeTagged, TagClass.length]
  case rgb => rcases rest with _ | ⟨b1, _ | ⟨b2, _ | ⟨b3, rest⟩⟩⟩ <;> simp_all [decodeTagged, TagClass.length]
  case rgba =>
    rcases rest with _ | ⟨b1, _ | ⟨b2, _ | ⟨b3, _ | ⟨b4, rest⟩⟩⟩⟩ <;> simp_all [decodeTagged, TagClass.length]
  all_goals simp [decodeTagged] at h

end Sys2Proof
end

