-- ==== Sys2Proof/Laws/State.lean ====
section
/-! SUPPORT. One lemma per field of State per update operation, so that no later proof unfolds a record update. -/

namespace Sys2Proof.Machine

@[simp] theorem startCommand_phase (s : State) : (startCommand s).phase = s.phase := rfl
@[simp] theorem startCommand_width (s : State) : (startCommand s).width = s.width := rfl
@[simp] theorem startCommand_height (s : State) : (startCommand s).height = s.height := rfl
@[simp] theorem startCommand_channels (s : State) : (startCommand s).channels = s.channels := rfl
@[simp] theorem startCommand_colorspace (s : State) : (startCommand s).colorspace = s.colorspace := rfl
@[simp] theorem startCommand_outCh (s : State) : (startCommand s).outCh = s.outCh := rfl
@[simp] theorem startCommand_prev (s : State) : (startCommand s).prev = s.cfg.prevInit := rfl
@[simp] theorem startCommand_run (s : State) : (startCommand s).run = 0 := rfl
@[simp] theorem startCommand_cache (s : State) : (startCommand s).cache = clearedCache := rfl
@[simp] theorem startCommand_pixcnt (s : State) : (startCommand s).pixcnt = 0 := rfl
@[simp] theorem startCommand_status (s : State) : (startCommand s).status = statusAtStart := rfl
@[simp] theorem startCommand_inp (s : State) : (startCommand s).inp = s.inp := rfl
@[simp] theorem startCommand_out (s : State) : (startCommand s).out = s.out := rfl
@[simp] theorem startCommand_written (s : State) : (startCommand s).written = [] := rfl
@[simp] theorem startCommand_command (s : State) : (startCommand s).command = s.command := rfl
@[simp] theorem startCommand_host (s : State) : (startCommand s).host = s.host := rfl
@[simp] theorem startCommand_cfg (s : State) : (startCommand s).cfg = s.cfg := rfl
@[simp] theorem startCommand_resets (s : State) : (startCommand s).resets = s.resets := rfl

@[simp] theorem advancePixel_phase (px : Pixel) (pad : Phase) (s : State) : (advancePixel px pad s).phase = if (s.pixcnt + 1).toNat = s.npix then pad else s.phase := rfl
@[simp] theorem advancePixel_width (px : Pixel) (pad : Phase) (s : State) : (advancePixel px pad s).width = s.width := rfl
@[simp] theorem advancePixel_height (px : Pixel) (pad : Phase) (s : State) : (advancePixel px pad s).height = s.height := rfl
@[simp] theorem advancePixel_channels (px : Pixel) (pad : Phase) (s : State) : (advancePixel px pad s).channels = s.channels := rfl
@[simp] theorem advancePixel_colorspace (px : Pixel) (pad : Phase) (s : State) : (advancePixel px pad s).colorspace = s.colorspace := rfl
@[simp] theorem advancePixel_outCh (px : Pixel) (pad : Phase) (s : State) : (advancePixel px pad s).outCh = s.outCh := rfl
@[simp] theorem advancePixel_prev (px : Pixel) (pad : Phase) (s : State) : (advancePixel px pad s).prev = px := rfl
@[simp] theorem advancePixel_run (px : Pixel) (pad : Phase) (s : State) : (advancePixel px pad s).run = s.run := rfl
@[simp] theorem advancePixel_cache (px : Pixel) (pad : Phase) (s : State) : (advancePixel px pad s).cache = s.cache := rfl
@[simp] theorem advancePixel_pixcnt (px : Pixel) (pad : Phase) (s : State) : (advancePixel px pad s).pixcnt = s.pixcnt + 1 := rfl
@[simp] theorem advancePixel_status (px : Pixel) (pad : Phase) (s : State) : (advancePixel px pad s).status = s.status := rfl
@[simp] theorem advancePixel_inp (px : Pixel) (pad : Phase) (s : State) : (advancePixel px pad s).inp = s.inp := rfl
@[simp] theorem advancePixel_out (px : Pixel) (pad : Phase) (s : State) : (advancePixel px pad s).out = s.out := rfl
@[simp] theorem advancePixel_written (px : Pixel) (pad : Phase) (s : State) : (advancePixel px pad s).written = s.written := rfl
@[simp] theorem advancePixel_command (px : Pixel) (pad : Phase) (s : State) : (advancePixel px pad s).command = s.command := rfl
@[simp] theorem advancePixel_host (px : Pixel) (pad : Phase) (s : State) : (advancePixel px pad s).host = s.host := rfl
@[simp] theorem advancePixel_cfg (px : Pixel) (pad : Phase) (s : State) : (advancePixel px pad s).cfg = s.cfg := rfl
@[simp] theorem advancePixel_resets (px : Pixel) (pad : Phase) (s : State) : (advancePixel px pad s).resets = s.resets := rfl

@[simp] theorem finishValid_phase (s : State) : (finishValid s).phase = .done := rfl
@[simp] theorem finishValid_width (s : State) : (finishValid s).width = s.width := rfl
@[simp] theorem finishValid_height (s : State) : (finishValid s).height = s.height := rfl
@[simp] theorem finishValid_channels (s : State) : (finishValid s).channels = s.channels := rfl
@[simp] theorem finishValid_colorspace (s : State) : (finishValid s).colorspace = s.colorspace := rfl
@[simp] theorem finishValid_outCh (s : State) : (finishValid s).outCh = s.outCh := rfl
@[simp] theorem finishValid_prev (s : State) : (finishValid s).prev = s.prev := rfl
@[simp] theorem finishValid_run (s : State) : (finishValid s).run = s.run := rfl
@[simp] theorem finishValid_cache (s : State) : (finishValid s).cache = s.cache := rfl
@[simp] theorem finishValid_pixcnt (s : State) : (finishValid s).pixcnt = s.pixcnt := rfl
@[simp] theorem finishValid_status (s : State) : (finishValid s).status = statusEnd (setField validBit true s.status) := rfl
@[simp] theorem finishValid_inp (s : State) : (finishValid s).inp = s.inp := rfl
@[simp] theorem finishValid_out (s : State) : (finishValid s).out = s.out := rfl
@[simp] theorem finishValid_written (s : State) : (finishValid s).written = s.written := rfl
@[simp] theorem finishValid_command (s : State) : (finishValid s).command = s.command := rfl
@[simp] theorem finishValid_host (s : State) : (finishValid s).host = s.host := rfl
@[simp] theorem finishValid_cfg (s : State) : (finishValid s).cfg = s.cfg := rfl
@[simp] theorem finishValid_resets (s : State) : (finishValid s).resets = s.resets := rfl

@[simp] theorem raiseError_phase (e : ErrorKind) (s : State) : (raiseError e s).phase = .done := rfl
@[simp] theorem raiseError_width (e : ErrorKind) (s : State) : (raiseError e s).width = s.width := rfl
@[simp] theorem raiseError_height (e : ErrorKind) (s : State) : (raiseError e s).height = s.height := rfl
@[simp] theorem raiseError_channels (e : ErrorKind) (s : State) : (raiseError e s).channels = s.channels := rfl
@[simp] theorem raiseError_colorspace (e : ErrorKind) (s : State) : (raiseError e s).colorspace = s.colorspace := rfl
@[simp] theorem raiseError_outCh (e : ErrorKind) (s : State) : (raiseError e s).outCh = s.outCh := rfl
@[simp] theorem raiseError_prev (e : ErrorKind) (s : State) : (raiseError e s).prev = s.prev := rfl
@[simp] theorem raiseError_run (e : ErrorKind) (s : State) : (raiseError e s).run = s.run := rfl
@[simp] theorem raiseError_cache (e : ErrorKind) (s : State) : (raiseError e s).cache = s.cache := rfl
@[simp] theorem raiseError_pixcnt (e : ErrorKind) (s : State) : (raiseError e s).pixcnt = s.pixcnt := rfl
@[simp] theorem raiseError_inp (e : ErrorKind) (s : State) : (raiseError e s).inp = s.inp := rfl
@[simp] theorem raiseError_out (e : ErrorKind) (s : State) : (raiseError e s).out = s.out := rfl
@[simp] theorem raiseError_written (e : ErrorKind) (s : State) : (raiseError e s).written = s.written := rfl
@[simp] theorem raiseError_command (e : ErrorKind) (s : State) : (raiseError e s).command = s.command := rfl
@[simp] theorem raiseError_host (e : ErrorKind) (s : State) : (raiseError e s).host = s.host := rfl
@[simp] theorem raiseError_cfg (e : ErrorKind) (s : State) : (raiseError e s).cfg = s.cfg := rfl
@[simp] theorem raiseError_resets (e : ErrorKind) (s : State) : (raiseError e s).resets = s.resets := rfl

@[simp] theorem loadHeader_phase (w h : BitVec 32) (c cs : Byte) (s : State) : (loadHeader w h c cs s).phase = if w.toNat * h.toNat > 0 then .dPix else .dPad := rfl
@[simp] theorem loadHeader_width (w h : BitVec 32) (c cs : Byte) (s : State) : (loadHeader w h c cs s).width = w := rfl
@[simp] theorem loadHeader_height (w h : BitVec 32) (c cs : Byte) (s : State) : (loadHeader w h c cs s).height = h := rfl
@[simp] theorem loadHeader_channels (w h : BitVec 32) (c cs : Byte) (s : State) : (loadHeader w h c cs s).channels = c := rfl
@[simp] theorem loadHeader_colorspace (w h : BitVec 32) (c cs : Byte) (s : State) : (loadHeader w h c cs s).colorspace = cs := rfl
@[simp] theorem loadHeader_outCh (w h : BitVec 32) (c cs : Byte) (s : State) : (loadHeader w h c cs s).outCh = s.outCh := rfl
@[simp] theorem loadHeader_prev (w h : BitVec 32) (c cs : Byte) (s : State) : (loadHeader w h c cs s).prev = s.prev := rfl
@[simp] theorem loadHeader_run (w h : BitVec 32) (c cs : Byte) (s : State) : (loadHeader w h c cs s).run = s.run := rfl
@[simp] theorem loadHeader_cache (w h : BitVec 32) (c cs : Byte) (s : State) : (loadHeader w h c cs s).cache = s.cache := rfl
@[simp] theorem loadHeader_pixcnt (w h : BitVec 32) (c cs : Byte) (s : State) : (loadHeader w h c cs s).pixcnt = s.pixcnt := rfl
@[simp] theorem loadHeader_status (w h : BitVec 32) (c cs : Byte) (s : State) : (loadHeader w h c cs s).status = s.status := rfl
@[simp] theorem loadHeader_inp (w h : BitVec 32) (c cs : Byte) (s : State) : (loadHeader w h c cs s).inp = s.inp := rfl
@[simp] theorem loadHeader_out (w h : BitVec 32) (c cs : Byte) (s : State) : (loadHeader w h c cs s).out = s.out := rfl
@[simp] theorem loadHeader_written (w h : BitVec 32) (c cs : Byte) (s : State) : (loadHeader w h c cs s).written = s.written := rfl
@[simp] theorem loadHeader_command (w h : BitVec 32) (c cs : Byte) (s : State) : (loadHeader w h c cs s).command = s.command := rfl
@[simp] theorem loadHeader_host (w h : BitVec 32) (c cs : Byte) (s : State) : (loadHeader w h c cs s).host = s.host := rfl
@[simp] theorem loadHeader_cfg (w h : BitVec 32) (c cs : Byte) (s : State) : (loadHeader w h c cs s).cfg = s.cfg := rfl
@[simp] theorem loadHeader_resets (w h : BitVec 32) (c cs : Byte) (s : State) : (loadHeader w h c cs s).resets = s.resets := rfl

@[simp] theorem supplyBytes_phase (bytes : List Byte) (s : State) : (supplyBytes bytes s).phase = s.phase := rfl
@[simp] theorem supplyBytes_width (bytes : List Byte) (s : State) : (supplyBytes bytes s).width = s.width := rfl
@[simp] theorem supplyBytes_height (bytes : List Byte) (s : State) : (supplyBytes bytes s).height = s.height := rfl
@[simp] theorem supplyBytes_channels (bytes : List Byte) (s : State) : (supplyBytes bytes s).channels = s.channels := rfl
@[simp] theorem supplyBytes_colorspace (bytes : List Byte) (s : State) : (supplyBytes bytes s).colorspace = s.colorspace := rfl
@[simp] theorem supplyBytes_outCh (bytes : List Byte) (s : State) : (supplyBytes bytes s).outCh = s.outCh := rfl
@[simp] theorem supplyBytes_prev (bytes : List Byte) (s : State) : (supplyBytes bytes s).prev = s.prev := rfl
@[simp] theorem supplyBytes_run (bytes : List Byte) (s : State) : (supplyBytes bytes s).run = s.run := rfl
@[simp] theorem supplyBytes_cache (bytes : List Byte) (s : State) : (supplyBytes bytes s).cache = s.cache := rfl
@[simp] theorem supplyBytes_pixcnt (bytes : List Byte) (s : State) : (supplyBytes bytes s).pixcnt = s.pixcnt := rfl
@[simp] theorem supplyBytes_status (bytes : List Byte) (s : State) : (supplyBytes bytes s).status = s.status := rfl
@[simp] theorem supplyBytes_inp (bytes : List Byte) (s : State) : (supplyBytes bytes s).inp = s.inp ++ bytes := rfl
@[simp] theorem supplyBytes_out (bytes : List Byte) (s : State) : (supplyBytes bytes s).out = s.out := rfl
@[simp] theorem supplyBytes_written (bytes : List Byte) (s : State) : (supplyBytes bytes s).written = s.written := rfl
@[simp] theorem supplyBytes_command (bytes : List Byte) (s : State) : (supplyBytes bytes s).command = s.command := rfl
@[simp] theorem supplyBytes_host (bytes : List Byte) (s : State) : (supplyBytes bytes s).host = s.host := rfl
@[simp] theorem supplyBytes_cfg (bytes : List Byte) (s : State) : (supplyBytes bytes s).cfg = s.cfg := rfl
@[simp] theorem supplyBytes_resets (bytes : List Byte) (s : State) : (supplyBytes bytes s).resets = s.resets := rfl

@[simp] theorem takeBytes_phase (n : Nat) (s : State) : (takeBytes n s).phase = s.phase := rfl
@[simp] theorem takeBytes_width (n : Nat) (s : State) : (takeBytes n s).width = s.width := rfl
@[simp] theorem takeBytes_height (n : Nat) (s : State) : (takeBytes n s).height = s.height := rfl
@[simp] theorem takeBytes_channels (n : Nat) (s : State) : (takeBytes n s).channels = s.channels := rfl
@[simp] theorem takeBytes_colorspace (n : Nat) (s : State) : (takeBytes n s).colorspace = s.colorspace := rfl
@[simp] theorem takeBytes_outCh (n : Nat) (s : State) : (takeBytes n s).outCh = s.outCh := rfl
@[simp] theorem takeBytes_prev (n : Nat) (s : State) : (takeBytes n s).prev = s.prev := rfl
@[simp] theorem takeBytes_run (n : Nat) (s : State) : (takeBytes n s).run = s.run := rfl
@[simp] theorem takeBytes_cache (n : Nat) (s : State) : (takeBytes n s).cache = s.cache := rfl
@[simp] theorem takeBytes_pixcnt (n : Nat) (s : State) : (takeBytes n s).pixcnt = s.pixcnt := rfl
@[simp] theorem takeBytes_status (n : Nat) (s : State) : (takeBytes n s).status = s.status := rfl
@[simp] theorem takeBytes_inp (n : Nat) (s : State) : (takeBytes n s).inp = s.inp := rfl
@[simp] theorem takeBytes_out (n : Nat) (s : State) : (takeBytes n s).out = s.out.drop n := rfl
@[simp] theorem takeBytes_written (n : Nat) (s : State) : (takeBytes n s).written = s.written := rfl
@[simp] theorem takeBytes_command (n : Nat) (s : State) : (takeBytes n s).command = s.command := rfl
@[simp] theorem takeBytes_host (n : Nat) (s : State) : (takeBytes n s).host = s.host := rfl
@[simp] theorem takeBytes_cfg (n : Nat) (s : State) : (takeBytes n s).cfg = s.cfg := rfl
@[simp] theorem takeBytes_resets (n : Nat) (s : State) : (takeBytes n s).resets = s.resets := rfl

@[simp] theorem hardwareReset_phase (s : State) : (hardwareReset s).phase = .idle := rfl
@[simp] theorem hardwareReset_width (s : State) : (hardwareReset s).width = Config.freeWidth s.resets := rfl
@[simp] theorem hardwareReset_height (s : State) : (hardwareReset s).height = Config.freeHeight s.resets := rfl
@[simp] theorem hardwareReset_channels (s : State) : (hardwareReset s).channels = Config.freeChannels s.resets := rfl
@[simp] theorem hardwareReset_colorspace (s : State) : (hardwareReset s).colorspace = Config.freeColorspace s.resets := rfl
@[simp] theorem hardwareReset_outCh (s : State) : (hardwareReset s).outCh = Config.freeOutCh s.resets := rfl
@[simp] theorem hardwareReset_prev (s : State) : (hardwareReset s).prev = Config.freePrev s.resets := rfl
@[simp] theorem hardwareReset_run (s : State) : (hardwareReset s).run = Config.freeRun s.resets := rfl
@[simp] theorem hardwareReset_cache (s : State) : (hardwareReset s).cache = Config.freeCache s.resets := rfl
@[simp] theorem hardwareReset_pixcnt (s : State) : (hardwareReset s).pixcnt = Config.freePixcnt s.resets := rfl
@[simp] theorem hardwareReset_status (s : State) : (hardwareReset s).status = 0 := rfl
@[simp] theorem hardwareReset_inp (s : State) : (hardwareReset s).inp = s.inp := rfl
@[simp] theorem hardwareReset_out (s : State) : (hardwareReset s).out = s.out := rfl
@[simp] theorem hardwareReset_written (s : State) : (hardwareReset s).written = s.written := rfl
@[simp] theorem hardwareReset_command (s : State) : (hardwareReset s).command = s.command := rfl
@[simp] theorem hardwareReset_host (s : State) : (hardwareReset s).host = s.host := rfl
@[simp] theorem hardwareReset_cfg (s : State) : (hardwareReset s).cfg = s.cfg := rfl
@[simp] theorem hardwareReset_resets (s : State) : (hardwareReset s).resets = s.resets + 1 := rfl

@[simp] theorem raiseError_magicMismatch_status (s : State) :
    (raiseError .magicMismatch s).status = statusEnd (setField errMagicBit true (setField validBit false s.status)) := rfl

@[simp] theorem raiseError_padMismatch_status (s : State) :
    (raiseError .padMismatch s).status = statusEnd (setField errPadBit true (setField validBit false s.status)) := rfl

@[simp] theorem advancePixel_npix (px : Pixel) (pad : Phase) (s : State) : (advancePixel px pad s).npix = s.npix := rfl

@[simp] theorem advancePixel_accepts (px : Pixel) (pad : Phase) (s : State) (n : Nat) :
    (advancePixel px pad s).accepts n = s.accepts n := rfl

@[simp] theorem finishValid_accepts (s : State) (n : Nat) : (finishValid s).accepts n = s.accepts n := rfl

end Sys2Proof.Machine
end

