-- ==== Sys2Proof/Laws/Ops.lean ====
section
/-! SUPPORT. What the shared operations of Machine/Ops.lean do, said once each: provers cite these and do not unfold. -/

namespace Sys2Proof.Machine

@[simp] theorem cacheRead_cacheWrite (cache : Cache) (i j : Slot) (p : Pixel) :
    cacheRead (cacheWrite cache i p) j = if j = i then p else cacheRead cache j := by
  simp only [cacheRead, cacheWrite, Vector.getElem_set, BitVec.toNat_inj]
  split <;> rename_i h
  · simp [h]
  · rw [if_neg (fun e => h e.symm)]

/-- Two caches that read alike in every slot are equal. -/
theorem cache_ext (c d : Cache) (h : ∀ i : Slot, cacheRead c i = cacheRead d i) : c = d := by
  apply Vector.ext
  intro i hi
  have := h (BitVec.ofNat 6 i)
  simpa [cacheRead, Nat.mod_eq_of_lt hi] using this

/-- Writing what a slot already holds changes nothing (90_conflicts.md C4). -/
theorem cacheWrite_same (cache : Cache) (i : Slot) : cacheWrite cache i (cacheRead cache i) = cache := by
  apply cache_ext
  intro j
  rw [cacheRead_cacheWrite]
  split
  · simp_all
  · rfl

@[simp] theorem cacheRead_clearedCache (i : Slot) : cacheRead clearedCache i = ⟨0, 0, 0, 0⟩ := by
  simp [cacheRead, clearedCache]

theorem cacheHit_iff (cache : Cache) (p : Pixel) : cacheHit cache p = true ↔ cacheRead cache (pixelHash p) = p := by
  simp [cacheHit]

theorem accepts_of_unbounded (s : State) (n : Nat) (h : s.cfg.outCap = none) : s.accepts n = true := by
  simp [State.accepts, h]

@[simp] theorem accepts_zero (s : State) : s.accepts 0 = true := by
  simp only [State.accepts]
  split <;> simp

/-- A sink that accepts n bytes accepts fewer. -/
theorem accepts_mono (s : State) (m n : Nat) (h : m ≤ n) (hn : s.accepts n = true) : s.accepts m = true := by
  simp only [State.accepts] at hn ⊢
  split at hn
  · rfl
  · simp only [Bool.or_eq_true, decide_eq_true_eq] at hn ⊢
    omega

theorem commit_of_accepts (bytes : List Byte) (s : State) (h : s.accepts bytes.length = true) :
    commit bytes s = .next { s with out := s.out ++ bytes, written := s.written ++ bytes } := by
  simp [commit, h]

theorem commit_of_full (bytes : List Byte) (s : State) (h : s.accepts bytes.length = false) :
    commit bytes s = .fault .waitOutput := by
  simp [commit, h]

/-- Everything a commit can answer. -/
theorem commit_cases (bytes : List Byte) (s : State) :
    (s.accepts bytes.length = true ∧
      commit bytes s = .next { s with out := s.out ++ bytes, written := s.written ++ bytes }) ∨
    (s.accepts bytes.length = false ∧ commit bytes s = .fault .waitOutput) := by
  cases h : s.accepts bytes.length
  · exact .inr ⟨rfl, commit_of_full bytes s h⟩
  · exact .inl ⟨rfl, commit_of_accepts bytes s h⟩

theorem commit_next {bytes : List Byte} {s t : State} (h : commit bytes s = .next t) :
    s.accepts bytes.length = true ∧ t = { s with out := s.out ++ bytes, written := s.written ++ bytes } := by
  rcases commit_cases bytes s with ⟨ha, hc⟩ | ⟨_, hc⟩ <;> rw [hc] at h
  · cases h
    exact ⟨ha, rfl⟩
  · cases h

/-- Everything a decoder pixel step's ending can answer with a next state (42_decoder.md R128, R129). -/
theorem emitPixel_next {px : Pixel} {s t : State} (h : emitPixel px s = .next t) :
    s.accepts (pixelBytes s.outCh px).length = true ∧
    t = { advancePixel px .dPad s with
          out := s.out ++ pixelBytes s.outCh px, written := s.written ++ pixelBytes s.outCh px } :=
  commit_next h

theorem emitPixel_of_accepts (px : Pixel) (s : State) (h : s.accepts (pixelBytes s.outCh px).length = true) :
    emitPixel px s = .next { advancePixel px .dPad s with
      out := s.out ++ pixelBytes s.outCh px, written := s.written ++ pixelBytes s.outCh px } :=
  commit_of_accepts _ _ h

theorem length_pixelBytes_le (n : Byte) (p : Pixel) : (pixelBytes n p).length ≤ n.toNat := by
  simp [pixelBytes]

@[simp] theorem pixelBytes_three (p : Pixel) : pixelBytes 3#8 p = [p.r, p.g, p.b] := rfl

@[simp] theorem pixelBytes_four (p : Pixel) : pixelBytes 4#8 p = [p.r, p.g, p.b, p.a] := rfl

theorem memRead_append (bytes rest : List Byte) : memRead bytes.length (bytes ++ rest) = some (bytes, rest) := by
  simp [memRead]

theorem memRead_some {n : Nat} {inp bytes rest : List Byte} (h : memRead n inp = some (bytes, rest)) :
    inp = bytes ++ rest ∧ bytes.length = n := by
  simp only [memRead] at h
  split at h
  · cases h
    simp_all
  · cases h

theorem memRead_none {n : Nat} {inp : List Byte} (h : memRead n inp = none) : inp.length < n := by
  simp only [memRead] at h
  split at h
  · cases h
  · omega

theorem pixelOfRaw_some {raw : List Byte} {px : Pixel} (h : pixelOfRaw raw = some px) :
    (raw = [px.r, px.g, px.b] ∧ px.a = 255#8) ∨ raw = [px.r, px.g, px.b, px.a] := by
  rcases raw with _ | ⟨r, _ | ⟨g, _ | ⟨b, _ | ⟨a, _ | ⟨x, rest⟩⟩⟩⟩⟩ <;> simp only [pixelOfRaw] at h <;> cases h <;> simp

/-- wrap8 is x mod 256 (00_scope.md R14). -/
theorem toNat_wrap8 (x : Int) : ((wrap8 x).toNat : Int) = x % 256 := by
  simp only [wrap8, BitVec.toNat_ofInt]
  exact Int.toNat_of_nonneg (Int.emod_nonneg _ (by decide))

/-- The two channel deltas agree mod 256 with the difference, whatever the mode (41_encoder.md R106). -/
theorem addDelta_channelDelta (m : DeltaMode) (c q : Byte) : addDelta q (channelDelta m c q) = c := by
  have hc := c.isLt
  have hq := q.isLt
  apply BitVec.eq_of_toNat_eq
  have h := toNat_wrap8 ((q.toNat : Int) + channelDelta m c q)
  have hw := toNat_wrap8 ((c.toNat : Int) - (q.toNat : Int))
  rw [addDelta]
  cases m
  · simp only [channelDelta, sext8] at h ⊢
    split at h <;> rename_i hs <;> simp only [hs, if_true, if_false] <;> omega
  · simp only [channelDelta] at h ⊢
    omega

theorem byte_of_packed (x y z w : Byte) (i : Nat) (hi : i < 8) :
    (x ++ y ++ z ++ w : BitVec 32).getLsbD (24 + i) = x.getLsbD i ∧
    (x ++ y ++ z ++ w : BitVec 32).getLsbD (16 + i) = y.getLsbD i ∧
    (x ++ y ++ z ++ w : BitVec 32).getLsbD (8 + i) = z.getLsbD i ∧
    (x ++ y ++ z ++ w : BitVec 32).getLsbD (0 + i) = w.getLsbD i := by
  refine ⟨?_, ?_, ?_, ?_⟩ <;> simp only [BitVec.getLsbD_append]
  · rw [if_neg (by omega), if_neg (by omega), if_neg (by omega), show 24 + i - 8 - 8 - 8 = i by omega]
  · rw [if_neg (by omega), if_neg (by omega), if_pos (by omega), show 16 + i - 8 - 8 = i by omega]
  · rw [if_neg (by omega), if_pos (by omega), show 8 + i - 8 = i by omega]
  · rw [if_pos (by omega), show 0 + i = i by omega]

/-- Packing a pixel in a 32-bit word loses nothing (00_scope.md R15). -/
theorem unpackPixel_packPixel (p : Pixel) : unpackPixel (packPixel p) = p := by
  have h (n : Nat) (x : Byte) (e : ∀ i, i < 8 → (packPixel p).getLsbD (n + i) = x.getLsbD i) :
      (packPixel p).extractLsb' n 8 = x := by
    apply BitVec.eq_of_getLsbD_eq
    intro i hi
    rw [BitVec.getLsbD_extractLsb', decide_eq_true hi, Bool.true_and, e i hi]
  have e := byte_of_packed p.r p.g p.b p.a
  simp only [unpackPixel]
  rw [h 24 p.r (fun i hi => (e i hi).1), h 16 p.g (fun i hi => (e i hi).2.1), h 8 p.b (fun i hi => (e i hi).2.2.1),
    h 0 p.a (fun i hi => (e i hi).2.2.2)]

end Sys2Proof.Machine
end

