-- ==== Sys2Proof/Laws/PerInstr.lean ====
section
/-! SUPPORT. Statements made once per constructor of Instr. -/

namespace Sys2Proof.Laws.EncodeShape

/-- The shape of an operation's encoding (30_encoding.md R77, R83): as many bytes as its tag class asks for, and, where
the operation has an encoding, a first byte that the tag classifier reads as that class. -/
def Statement (i : Instr) : Prop :=
  (encode i).length = i.tag.length ∧ (i.WellFormed → ∃ b0 rest, encode i = b0 :: rest ∧ tagClass b0 = i.tag)

theorem index (i : Slot) : Statement (.index i) :=
  ⟨rfl, fun _ => ⟨_, [], rfl, tagClass_index i⟩⟩

theorem diff (dr dg db : Int) : Statement (.diff dr dg db) :=
  ⟨rfl, fun _ => ⟨_, [], rfl, tagClass_diff _ _ _⟩⟩

theorem luma (dg drdg dbdg : Int) : Statement (.luma dg drdg dbdg) :=
  ⟨rfl, fun _ => ⟨_, _, rfl, tagClass_luma _⟩⟩

/-- Without the bound the field of 63 or 64 pixels would read as a literal's tag (30_encoding.md R73). -/
theorem run (k : Nat) : Statement (.run k) := by
  refine ⟨rfl, fun h => ⟨_, [], rfl, tagClass_run _ ?_⟩⟩
  simp only [Instr.WellFormed, Instr.wellFormed, Bool.and_eq_true, decide_eq_true_eq, runMax] at h
  simp only [BitVec.toNat_ofNat]
  omega

theorem rgb (r g b : Byte) : Statement (.rgb r g b) :=
  ⟨rfl, fun _ => ⟨_, _, rfl, rfl⟩⟩

theorem rgba (r g b a : Byte) : Statement (.rgba r g b a) :=
  ⟨rfl, fun _ => ⟨_, _, rfl, rfl⟩⟩

end Sys2Proof.Laws.EncodeShape
end

