-- ==== Sys2Proof/Laws/Step.lean ====
section
/-! SUPPORT. One inversion lemma per step function: if it answers next t, then one of these cases holds. The invariants and
frames are read off these, not off the functions. -/

namespace Sys2Proof.Machine

/-- Everything an operation can do when it answers a next state (42_decoder.md R121 to R129): it emits the pixel px, and
either it is a RUN, which writes RUN and no slot, or it writes px at its pixelHash and leaves RUN. -/
theorem exec_next {i : Instr} {s t : State} (h : exec i s = .next t) :
    ∃ (px : Pixel) (run : BitVec 6) (cache : Cache),
      s.accepts (pixelBytes s.outCh px).length = true ∧
      t = { advancePixel px .dPad { s with run := run, cache := cache } with
            out := s.out ++ pixelBytes s.outCh px, written := s.written ++ pixelBytes s.outCh px } ∧
      ((∃ k, i = .run k ∧ px = s.prev ∧ run = BitVec.ofNat 6 (k - 1) ∧ cache = s.cache) ∨
        (run = s.run ∧ cache = cacheWrite s.cache (pixelHash px) px)) := by
  cases i
  case run k =>
    obtain ⟨ha, ht⟩ := emitPixel_next h
    exact ⟨s.prev, _, s.cache, ha, ht, .inl ⟨k, rfl, rfl, rfl, rfl⟩⟩
  all_goals
    obtain ⟨ha, ht⟩ := emitPixel_next h
    exact ⟨_, s.run, _, ha, ht, .inr ⟨rfl, rfl⟩⟩

/-- An operation answers a next state or waits for output, and nothing else (20_memory.md R55). -/
theorem exec_cases (i : Instr) (s : State) : (∃ t, exec i s = .next t) ∨ exec i s = .fault .waitOutput := by
  have h (px : Pixel) (u : State) : (∃ t, emitPixel px u = .next t) ∨ emitPixel px u = .fault .waitOutput := by
    rcases commit_cases (pixelBytes u.outCh px) (advancePixel px .dPad u) with ⟨_, e⟩ | ⟨_, e⟩
    · exact .inl ⟨_, e⟩
    · exact .inr e
  cases i <;> exact h _ _

/-- A repeated pixel that fills the run or is the last one writes the RUN operation (41_encoder.md R100). -/
theorem encodePixel_flush {px : Pixel} {s : State} (he : px = s.prev)
    (hf : (s.run + 1).toNat = runMax ∨ s.lastPixel = true) :
    encodePixel px s =
      commit (encode (.run (s.run + 1).toNat)) (advancePixel px .ePad { s with run := 0, cache := s.cache }) := by
  have e : runLengthEncoder (decide (px = s.prev)) s.lastPixel s.run =
      ⟨true, encode (.run (s.run + 1).toNat), 0, false⟩ := by
    rw [runLengthEncoder, decide_eq_true he, if_pos rfl, if_pos hf]
  simp only [encodePixel, e, List.append_nil, Bool.false_eq_true, if_false]

/-- Any other repeated pixel is only counted (41_encoder.md R99). -/
theorem encodePixel_extend {px : Pixel} {s : State} (he : px = s.prev)
    (hf : ¬ ((s.run + 1).toNat = runMax ∨ s.lastPixel = true)) :
    encodePixel px s = commit [] (advancePixel px .ePad { s with run := s.run + 1, cache := s.cache }) := by
  have e : runLengthEncoder (decide (px = s.prev)) s.lastPixel s.run = ⟨false, [], s.run + 1, false⟩ := by
    rw [runLengthEncoder, decide_eq_true he, if_pos rfl, if_neg hf]
  simp only [encodePixel, e, List.append_nil, Bool.false_eq_true, if_false]

/-- A different pixel: the pending run, if any, and then the operation of tag_mux (41_encoder.md R101, R103). -/
theorem encodePixel_different {px : Pixel} {s : State} (he : px ≠ s.prev) :
    encodePixel px s =
      commit ((if s.run.toNat > 0 then encode (.run s.run.toNat) else []) ++
          encode (tagMux s.cfg.deltaMode px s.prev s.cache))
        (advancePixel px .ePad { s with run := 0, cache := tagMuxCache px s.cache }) := by
  by_cases hr : s.run.toNat > 0
  · have e : runLengthEncoder (decide (px = s.prev)) s.lastPixel s.run =
        ⟨true, encode (.run s.run.toNat), 0, true⟩ := by
      rw [runLengthEncoder, decide_eq_false he, if_neg (by simp), if_pos hr]
    simp only [encodePixel, e, if_true, if_pos hr]
  · have h0 : s.run = 0 := BitVec.eq_of_toNat_eq (by simpa using hr)
    have e : runLengthEncoder (decide (px = s.prev)) s.lastPixel s.run = ⟨false, [], 0, true⟩ := by
      rw [runLengthEncoder, decide_eq_false he, if_neg (by simp), if_neg hr, h0]
    simp only [encodePixel, e, if_true, if_neg hr]

/-- Everything the encoder's step for one pixel can do when it answers a next state (41_encoder.md R98). -/
theorem encodePixel_next {px : Pixel} {s t : State} (h : encodePixel px s = .next t) :
    ∃ (bytes : List Byte) (run : BitVec 6) (cache : Cache),
      s.accepts bytes.length = true ∧
      t = { advancePixel px .ePad { s with run := run, cache := cache } with
            out := s.out ++ bytes, written := s.written ++ bytes } ∧
      ((px = s.prev ∧ cache = s.cache ∧
          (((s.run + 1).toNat = runMax ∨ s.lastPixel = true) ∧ run = 0 ∧ bytes = encode (.run (s.run + 1).toNat) ∨
            ¬ ((s.run + 1).toNat = runMax ∨ s.lastPixel = true) ∧ run = s.run + 1 ∧ bytes = [])) ∨
        (px ≠ s.prev ∧ cache = tagMuxCache px s.cache ∧ run = 0 ∧
          bytes = (if s.run.toNat > 0 then encode (.run s.run.toNat) else []) ++
            encode (tagMux s.cfg.deltaMode px s.prev s.cache))) := by
  by_cases he : px = s.prev
  · by_cases hf : (s.run + 1).toNat = runMax ∨ s.lastPixel = true
    · rw [encodePixel_flush he hf] at h
      obtain ⟨ha, ht⟩ := commit_next h
      exact ⟨_, _, _, ha, ht, .inl ⟨he, rfl, .inl ⟨hf, rfl, rfl⟩⟩⟩
    · rw [encodePixel_extend he hf] at h
      obtain ⟨ha, ht⟩ := commit_next h
      exact ⟨_, _, _, ha, ht, .inl ⟨he, rfl, .inr ⟨hf, rfl, rfl⟩⟩⟩
  · rw [encodePixel_different he] at h
    obtain ⟨ha, ht⟩ := commit_next h
    exact ⟨_, _, _, ha, ht, .inr ⟨he, rfl, rfl, rfl⟩⟩

/-- The encoder's pixel step reads one pixel's bytes and then encodes that pixel (41_encoder.md R97). -/
theorem encPixel_next {s t : State} (h : encPixel s = .next t) :
    ∃ px raw rest, s.inp = raw ++ rest ∧ raw.length = s.channels.toNat ∧ pixelOfRaw raw = some px ∧
      encodePixel px { s with inp := rest } = .next t := by
  simp only [encPixel] at h
  split at h
  · cases h
  · rename_i raw rest hm
    split at h
    · cases h
    · rename_i px hp
      exact ⟨px, raw, rest, (memRead_some hm).1, (memRead_some hm).2, hp, h⟩

/-- The decoder's pixel step repeats PREV or runs the operation at the front of IN (42_decoder.md R119). -/
theorem decPixel_next {s t : State} (h : decPixel s = .next t) :
    (s.run.toNat > 0 ∧ runRepeat s = .next t) ∨
    (s.run = 0 ∧ ∃ i rest, decode s.inp = .op i rest ∧ exec i { s with inp := rest } = .next t) := by
  simp only [decPixel] at h
  split at h
  · exact .inl ⟨‹_›, h⟩
  · rename_i hr
    refine .inr ⟨BitVec.eq_of_toNat_eq (by simpa using hr), ?_⟩
    split at h
    · exact ⟨_, _, ‹_›, h⟩
    · cases h
    · cases h

/-- The codec's step runs the row of 10_state.md R41 that its phase names. -/
theorem codecStep_next {s t : State} (h : codecStep s = .next t) :
    (s.phase = .eHdr ∧ encHeader s = .next t) ∨ (s.phase = .ePix ∧ encPixel s = .next t) ∨
    (s.phase = .ePad ∧ encPad s = .next t) ∨ (s.phase = .dMagic ∧ decMagic s = .next t) ∨
    (s.phase = .dHdr ∧ decHeader s = .next t) ∨ (s.phase = .dPix ∧ decPixel s = .next t) ∨
    (s.phase = .dPad ∧ decPad s = .next t) := by
  simp only [codecStep] at h
  split at h <;> simp_all

/-- The header read takes ten bytes (42_decoder.md R118). -/
theorem decHeader_next {s t : State} (h : decHeader s = .next t) :
    ∃ w0 w1 w2 w3 h0 h1 h2 h3 c cs rest,
      s.inp = w0 :: w1 :: w2 :: w3 :: h0 :: h1 :: h2 :: h3 :: c :: cs :: rest ∧
      t = loadHeader (u32OfBytes w0 w1 w2 w3) (u32OfBytes h0 h1 h2 h3) c cs { s with inp := rest } := by
  simp only [decHeader] at h
  split at h
  · rename_i w0 w1 w2 w3 h0 h1 h2 h3 c cs rest hi
    cases h
    exact ⟨w0, w1, w2, w3, h0, h1, h2, h3, c, cs, rest, hi, rfl⟩
  · cases h

/-- The magic check takes four bytes and compares them all (42_decoder.md R117). -/
theorem decMagic_next {s t : State} (h : decMagic s = .next t) :
    ∃ m rest, s.inp = m ++ rest ∧ m.length = 4 ∧
      (m = magicBytes ∧ t = { s with inp := rest, phase := .dHdr } ∨
        m ≠ magicBytes ∧ t = raiseError .magicMismatch { s with inp := rest }) := by
  simp only [decMagic] at h
  split at h
  · cases h
  · rename_i m rest hm
    refine ⟨m, rest, (memRead_some hm).1, (memRead_some hm).2, ?_⟩
    split at h <;> rename_i he <;> cases h
    · exact .inl ⟨he, rfl⟩
    · exact .inr ⟨he, rfl⟩

/-- The end-marker check takes eight bytes and compares them all (42_decoder.md R131). -/
theorem decPad_next {s t : State} (h : decPad s = .next t) :
    ∃ m rest, s.inp = m ++ rest ∧ m.length = 8 ∧
      (m = endMarker ∧ t = finishValid { s with inp := rest } ∨
        m ≠ endMarker ∧ t = raiseError .padMismatch { s with inp := rest }) := by
  simp only [decPad] at h
  split at h
  · cases h
  · rename_i m rest hm
    refine ⟨m, rest, (memRead_some hm).1, (memRead_some hm).2, ?_⟩
    split at h <;> rename_i he <;> cases h
    · exact .inl ⟨he, rfl⟩
    · exact .inr ⟨he, rfl⟩

/-- The header writer (41_encoder.md R96). -/
theorem encHeader_next {s t : State} (h : encHeader s = .next t) :
    s.accepts 14 = true ∧
    t = { s with
          phase := if s.npix > 0 then .ePix else .ePad
          out := s.out ++ encodeHeader s.width s.height s.channels s.colorspace
          written := s.written ++ encodeHeader s.width s.height s.channels s.colorspace } :=
  commit_next h

/-- The end-marker writer (41_encoder.md R113). -/
theorem encPad_next {s t : State} (h : encPad s = .next t) :
    s.accepts 8 = true ∧
    t = { finishValid s with out := s.out ++ endMarker, written := s.written ++ endMarker } :=
  commit_next h

theorem atRest_iff (s : State) : s.atRest = true ↔ s.phase = .idle ∨ s.phase = .done := by
  simp [State.atRest]

/-- ENCODE at rest (41_encoder.md R95). -/
theorem acceptEncode_at_rest {w h : BitVec 32} {c cs : Byte} {s : State} (e : s.atRest = true) :
    acceptEncode w h c cs s =
      if (c = 3#8 ∨ c = 4#8) ∧ (cs = 0#8 ∨ cs = 1#8) then
        .next { startCommand s with width := w, height := h, channels := c, colorspace := cs, phase := .eHdr, command := some .encode }
      else .refused .encodeArgs := by
  rw [acceptEncode, if_neg (by rw [e]; decide)]

/-- ENCODE while a command is running (60_exceptions.md R138). -/
theorem acceptEncode_busy {w h : BitVec 32} {c cs : Byte} {s : State} (e : s.atRest = false) :
    acceptEncode w h c cs s = .refused .busy := by
  rw [acceptEncode, if_pos e]

/-- DECODE at rest (42_decoder.md R116). -/
theorem acceptDecode_at_rest {oc : Byte} {s : State} (e : s.atRest = true) :
    acceptDecode oc s =
      if oc = 3#8 ∨ oc = 4#8 then .next { startCommand s with outCh := oc, phase := .dMagic, command := some .decode }
      else .refused .decodeArgs := by
  rw [acceptDecode, if_neg (by rw [e]; decide)]

/-- DECODE while a command is running (60_exceptions.md R138). -/
theorem acceptDecode_busy {oc : Byte} {s : State} (e : s.atRest = false) :
    acceptDecode oc s = .refused .busy := by
  rw [acceptDecode, if_pos e]

/-- ENCODE is accepted at rest with legal arguments only (41_encoder.md R95). -/
theorem acceptEncode_next {w h : BitVec 32} {c cs : Byte} {s t : State} (e : acceptEncode w h c cs s = .next t) :
    s.atRest = true ∧ (c = 3#8 ∨ c = 4#8) ∧ (cs = 0#8 ∨ cs = 1#8) ∧
    t = { startCommand s with width := w, height := h, channels := c, colorspace := cs, phase := .eHdr, command := some .encode } := by
  simp only [acceptEncode] at e
  split at e
  · cases e
  · rename_i hr
    split at e
    · rename_i ha
      cases e
      exact ⟨by simpa using hr, ha.1, ha.2, rfl⟩
    · cases e

/-- DECODE is accepted at rest with a legal argument only (42_decoder.md R116). -/
theorem acceptDecode_next {oc : Byte} {s t : State} (e : acceptDecode oc s = .next t) :
    s.atRest = true ∧ (oc = 3#8 ∨ oc = 4#8) ∧ t = { startCommand s with outCh := oc, phase := .dMagic, command := some .decode } := by
  simp only [acceptDecode] at e
  split at e
  · cases e
  · rename_i hr
    split at e
    · rename_i ha
      cases e
      exact ⟨by simpa using hr, ha, rfl⟩
    · cases e

/-- The codec's turn is its step, or nothing when it has none (60_exceptions.md R139). -/
theorem codecTurn_next {s t : State} (h : codecTurn s = .next t) : codecStep s = .next t ∨ t = s := by
  simp only [codecTurn] at h
  split at h <;> cases h
  · exact .inl ‹_›
  all_goals exact .inr rfl

/-- With no host move left a step is the codec's. -/
theorem step_of_codec {s : State} (h : s.host = []) : step s = codecStep s := by
  simp only [step, turn, h]

/-- With a host move left a step is that move's. -/
theorem step_of_move {s : State} {m : HostMove} {ms : List HostMove} (h : s.host = m :: ms) :
    step s = hostTurn m { s with host := ms } := by
  simp only [step, turn, h]

theorem codecTurn_of_next {s t : State} (h : codecStep s = .next t) : codecTurn s = .next t := by
  simp only [codecTurn, h]

/-- A turn in which the codec has no move passes and changes nothing (60_exceptions.md R139). -/
theorem codecTurn_of_wait {s : State} {f : Fault} (h : codecStep s = .fault f) (hf : f ≠ .illegalChannels) :
    codecTurn s = .next s := by
  simp only [codecTurn, h]
  cases f <;> first | rfl | exact absurd rfl hf

/-! The codec's step in each phase (10_state.md R41). -/

theorem codecStep_eHdr {s : State} (h : s.phase = .eHdr) : codecStep s = encHeader s := by
  rw [codecStep, h]

theorem codecStep_ePix {s : State} (h : s.phase = .ePix) : codecStep s = encPixel s := by
  rw [codecStep, h]

theorem codecStep_ePad {s : State} (h : s.phase = .ePad) : codecStep s = encPad s := by
  rw [codecStep, h]

theorem codecStep_dMagic {s : State} (h : s.phase = .dMagic) : codecStep s = decMagic s := by
  rw [codecStep, h]

theorem codecStep_dHdr {s : State} (h : s.phase = .dHdr) : codecStep s = decHeader s := by
  rw [codecStep, h]

theorem codecStep_dPix {s : State} (h : s.phase = .dPix) : codecStep s = decPixel s := by
  rw [codecStep, h]

theorem codecStep_dPad {s : State} (h : s.phase = .dPad) : codecStep s = decPad s := by
  rw [codecStep, h]

theorem codecStep_idle {s : State} (h : s.phase = .idle) : codecStep s = .fault .atRest := by
  rw [codecStep, h]

theorem codecStep_done {s : State} (h : s.phase = .done) : codecStep s = .fault .atRest := by
  rw [codecStep, h]

/-- A decoder pixel step with no owed repeat is the operation at the front of IN (42_decoder.md R119). -/
theorem decPixel_of_op {s : State} {i : Instr} {rest : List Byte} (hr : s.run = 0) (hd : decode s.inp = .op i rest) :
    decPixel s = exec i { s with inp := rest } := by
  rw [decPixel, if_neg (by rw [hr]; decide), hd]

/-- One step is the codec's, or it makes the host's next move (10_state.md R40, log 6). -/
theorem step_next {s t : State} (h : step s = .next t) :
    (s.host = [] ∧ codecStep s = .next t) ∨
    ∃ m rest, s.host = m :: rest ∧ hostTurn m { s with host := rest } = .next t := by
  simp only [step, turn] at h
  split at h
  · exact .inl ⟨‹_›, h⟩
  · exact .inr ⟨_, _, ‹_›, h⟩

/-- Everything a host's move can do when it answers a next state (10_state.md R40). -/
theorem hostTurn_next {m : HostMove} {s t : State} (h : hostTurn m s = .next t) :
    (∃ w h c cs, m = .encode w h c cs ∧ acceptEncode w h c cs s = .next t) ∨
    (∃ oc, m = .decode oc ∧ acceptDecode oc s = .next t) ∨
    (∃ bytes, m = .supply bytes ∧ t = supplyBytes bytes s) ∨
    (∃ n, m = .take n ∧ t = takeBytes n s) ∨
    (m = .reset ∧ t = hardwareReset s) ∨
    (m = .leave ∧ (codecStep s = .next t ∨ t = s)) := by
  cases m with
  | encode w hh c cs => exact .inl ⟨w, hh, c, cs, rfl, h⟩
  | decode oc => exact .inr (.inl ⟨oc, rfl, h⟩)
  | supply bytes =>
    cases h
    exact .inr (.inr (.inl ⟨bytes, rfl, rfl⟩))
  | take n =>
    cases h
    exact .inr (.inr (.inr (.inl ⟨n, rfl, rfl⟩)))
  | reset =>
    cases h
    exact .inr (.inr (.inr (.inr (.inl ⟨rfl, rfl⟩))))
  | leave => exact .inr (.inr (.inr (.inr (.inr ⟨rfl, codecTurn_next h⟩))))

/-- A run whose first step answers next goes on from there (Host.Core.run). -/
theorem run_succ_of_next {n : Nat} {s t : State} (h : step s = .next t) :
    Host.Core.run Sys2Proof.core (n + 1) s = Host.Core.run Sys2Proof.core n t := by
  have h' : Sys2Proof.core.step s = .next t := h
  simp only [Host.Core.run, h']

/-- A run that answers next took a first step that did (Host.Core.run). -/
theorem run_succ_next {n : Nat} {s t : State} (h : Host.Core.run Sys2Proof.core (n + 1) s = .next t) :
    ∃ u, step s = .next u ∧ Host.Core.run Sys2Proof.core n u = .next t := by
  simp only [Host.Core.run] at h
  split at h
  · rename_i u hu
    exact ⟨u, hu, h⟩
  · cases h
  · cases h

/-- m + n steps are m steps and then n more. -/
theorem run_add (m n : Nat) {s t : State} (h : Host.Core.run Sys2Proof.core m s = .next t) :
    Host.Core.run Sys2Proof.core (m + n) s = Host.Core.run Sys2Proof.core n t := by
  induction m generalizing s with
  | zero =>
    cases h
    simp
  | succ m ih =>
    obtain ⟨u, hu, hr⟩ := run_succ_next h
    rw [show m + 1 + n = m + n + 1 by omega, run_succ_of_next hu]
    exact ih hr

end Sys2Proof.Machine
end

