-- ==== Sys2Proof/Tests/Slice0.lean ====
section
/-! SUPPORT. The model's own tests. Expected values are from spec/95_test_vectors.md (the row is named) or worked out by hand
from the rule named. The theorems named witness_<statement> show states and operands that meet all hypotheses of that statement. -/

namespace Sys2Proof.Tests

open Sys2Proof.Machine

/-- What holds of the next state, and false when there is none. -/
def after (o : Result) (p : State → Bool) : Bool :=
  match o with
  | .next t => p t
  | .fault _ => false
  | .refused _ => false

/-- What holds of the refusal, and false when there is none. -/
def refusedAs (o : Result) (r : Refusal) : Bool :=
  match o with
  | .next _ => false
  | .fault _ => false
  | .refused q => decide (q = r)

/-- A DECODE of 4 channels with many pixels left, this PREV, and these bytes next. -/
def decoding (prev : Pixel) (bytes : List Byte) : State :=
  { State.reset with
    phase := .dPix, status := 1, command := some .decode, outCh := 4, width := 100, height := 1, prev := prev, inp := bytes }

/-- An ENCODE of 4 channels with many pixels left, this PREV, and this pixel next. -/
def encoding (prev px : Pixel) : State :=
  { State.reset with
    phase := .ePix, status := 1, command := some .encode, channels := 4, width := 100, height := 1, prev := prev,
    inp := [px.r, px.g, px.b, px.a] }

/-- Another phase of a command, the one the phase belongs to. -/
def inPhase (p : Phase) (inp : List Byte) : State :=
  { State.reset with
    phase := p, status := 1, command := if p.encoding then some .encode else some .decode, outCh := 4, channels := 4,
    width := 2, height := 1, inp := inp }

def grey : Pixel := ⟨100, 100, 100, 255⟩

/-! ### Well-formedness: an ill-formed term for each check -/

theorem test_diff_red_too_small : (Instr.diff (-3) 0 0).wellFormed = false := by decide
theorem test_diff_green_too_large : (Instr.diff 0 2 0).wellFormed = false := by decide
theorem test_diff_blue_too_small : (Instr.diff 0 0 (-3)).wellFormed = false := by decide
theorem test_luma_green_too_large : (Instr.luma 32 0 0).wellFormed = false := by decide
theorem test_luma_red_too_small : (Instr.luma 0 (-9) 0).wellFormed = false := by decide
theorem test_luma_blue_too_large : (Instr.luma 0 0 8).wellFormed = false := by decide
theorem test_run_of_none : (Instr.run 0).wellFormed = false := by decide
theorem test_run_of_63 : (Instr.run 63).wellFormed = false := by decide

/-! ### Decoding: words written out from 30_encoding.md R70 to R75 -/

theorem test_decode_index : decode [0b00111111#8] = .op (.index 63) [] := by decide
theorem test_decode_diff : decode [0b01011110#8] = .op (.diff (-1) 1 0) [] := by decide
theorem test_decode_luma : decode [0b10111111#8, 0b11110001#8] = .op (.luma 31 7 (-7)) [] := by decide
theorem test_decode_run : decode [0b11000101#8, 9] = .op (.run 6) [9] := by decide
theorem test_decode_rgb : decode [0b11111110#8, 1, 2, 3, 4] = .op (.rgb 1 2 3) [4] := by decide
theorem test_decode_rgba : decode [0b11111111#8, 1, 2, 3, 4] = .op (.rgba 1 2 3 4) [] := by decide
theorem test_decode_short : decode [0xfe#8, 1] = .cutShort .rgb := by decide
theorem test_decode_nothing : decode [] = .noTag := by decide

/-- The first byte is bits 7..0 of the word, the second bits 15..8. -/
theorem test_table_word_luma : decodeTableWord 16 0x58a0 = some (.luma 0 (-3) 0) := by decide

theorem test_table_word_rgba : decodeTableWord 40 0x04030201ff = some (.rgba 1 2 3 4) := by decide

/-- Placed after reset, the word is what the next step runs: the first INDEX reads a cleared slot (D-5). -/
theorem test_fetch_word :
    after (step (State.reset.withFetchWord 8 0x00)) (fun t => decide (t.prev = ⟨0, 0, 0, 0⟩ ∧ t.out = [0, 0, 0, 0])) = true := by
  decide

/-! ### One decoder step per operation (95_test_vectors.md section 2.6) -/

/-- D-4. -/
theorem test_index_D4 :
    after (step { decoding ⟨0, 0, 0, 255⟩ [0x09] with cache := cacheWrite clearedCache 9 ⟨10, 20, 30, 255⟩ })
      (fun t => decide (t.prev = ⟨10, 20, 30, 255⟩ ∧ cacheRead t.cache 9 = ⟨10, 20, 30, 255⟩)) = true := by decide

/-- 42_decoder.md R123: INDEX 05 on a slot never written yields (0,0,0,0) and rewrites slot 0. -/
theorem test_index_of_unwritten_slot :
    after (step { decoding ⟨64, 0, 0, 0⟩ [0x05] with cache := cacheWrite clearedCache 0 ⟨64, 0, 0, 0⟩ })
      (fun t => decide (t.prev = ⟨0, 0, 0, 0⟩ ∧ cacheRead t.cache 0 = ⟨0, 0, 0, 0⟩)) = true := by decide

/-- D-6. -/
theorem test_diff_D6 :
    after (step (decoding ⟨11, 19, 30, 255⟩ [0x5e]))
      (fun t => decide (t.prev = ⟨10, 20, 30, 255⟩ ∧ cacheRead t.cache 9 = ⟨10, 20, 30, 255⟩)) = true := by decide

/-- D-7, with the bytes on OUT. -/
theorem test_diff_D7 :
    after (step (decoding ⟨0, 0, 0, 255⟩ [0x40])) (fun t => decide (t.out = [0xfe, 0xfe, 0xfe, 0xff])) = true := by decide

/-- D-10. -/
theorem test_luma_D10 :
    after (step (decoding grey [0xa0, 0x58]))
      (fun t => decide (t.prev = ⟨97, 100, 100, 255⟩ ∧ cacheRead t.cache 8 = ⟨97, 100, 100, 255⟩)) = true := by decide

/-- D-14. -/
theorem test_luma_D14 :
    after (step (decoding ⟨0, 128, 255, 7⟩ [0x9f, 0x7f])) (fun t => decide (t.prev = ⟨254, 127, 5, 7⟩)) = true := by decide

/-- D-18. -/
theorem test_run_D18 :
    after (step (decoding ⟨9, 9, 9, 9⟩ [0xfd]))
      (fun t => decide (t.prev = ⟨9, 9, 9, 9⟩ ∧ t.run = 61 ∧ t.cache = clearedCache)) = true := by decide

/-- D-19: the byte in IN is not read. -/
theorem test_run_D19 :
    after (step { decoding ⟨9, 9, 9, 9⟩ [0x40] with run := 61 })
      (fun t => decide (t.prev = ⟨9, 9, 9, 9⟩ ∧ t.run = 60 ∧ t.inp = [0x40])) = true := by decide

/-- D-2: alpha inherited. -/
theorem test_rgb_D2 :
    after (step (decoding ⟨1, 2, 3, 7⟩ [0xfe, 9, 9, 9]))
      (fun t => decide (t.prev = ⟨9, 9, 9, 7⟩ ∧ cacheRead t.cache 20 = ⟨9, 9, 9, 7⟩)) = true := by decide

/-- D-3. -/
theorem test_rgba_D3 :
    after (step (decoding ⟨0, 0, 0, 255⟩ [0xff, 1, 2, 3, 4]))
      (fun t => decide (t.prev = ⟨1, 2, 3, 4⟩ ∧ cacheRead t.cache 14 = ⟨1, 2, 3, 4⟩)) = true := by decide

/-! ### One encoder step per operation (95_test_vectors.md sections 2.3 to 2.5) -/

/-- T-21: INDEX beats DIFF. -/
theorem test_encode_T21 :
    after (step { encoding grey ⟨98, 101, 98, 255⟩ with cache := cacheWrite clearedCache 2 ⟨98, 101, 98, 255⟩ })
      (fun t => decide (t.out = [0x02])) = true := by decide

/-- T-1. -/
theorem test_encode_T1 :
    after (step (encoding grey ⟨98, 101, 98, 255⟩))
      (fun t => decide (t.out = [0x4c] ∧ cacheRead t.cache 2 = ⟨98, 101, 98, 255⟩)) = true := by decide

/-- T-12: LUMA at its upper bounds. -/
theorem test_encode_T12 :
    after (step (encoding grey ⟨138, 131, 124, 255⟩)) (fun t => decide (t.out = [0xbf, 0xf1])) = true := by decide

/-- T-14: one past the LUMA bound. -/
theorem test_encode_T14 :
    after (step (encoding grey ⟨139, 131, 124, 255⟩)) (fun t => decide (t.out = [0xfe, 0x8b, 0x83, 0x7c])) = true := by decide

/-- T-20: RGBA beats DIFF. -/
theorem test_encode_T20 :
    after (step (encoding grey ⟨101, 100, 100, 254⟩)) (fun t => decide (t.out = [0xff, 0x65, 0x64, 0x64, 0xfe])) = true := by
  decide

/-- Section 2.3: the 62nd repeat flushes. -/
theorem test_encode_full_run :
    after (step { encoding grey grey with run := 61 }) (fun t => decide (t.out = [0xfd] ∧ t.run = 0)) = true := by decide

/-- Section 2.3: a pending run of 1 and then DIFF. -/
theorem test_encode_pending_run :
    after (step { encoding ⟨10, 20, 30, 255⟩ ⟨11, 19, 30, 255⟩ with run := 1 })
      (fun t => decide (t.out = [0xc0, 0x76] ∧ t.run = 0)) = true := by decide

/-- Section 2.5, third row: the same pixel under the two modes of DELTA_MODE. -/
theorem test_encode_wrap8 :
    after (step (encoding ⟨255, 255, 255, 255⟩ ⟨0, 0, 0, 255⟩)) (fun t => decide (t.out = [0x7f])) = true := by decide

theorem test_encode_widened :
    after (step { encoding ⟨255, 255, 255, 255⟩ ⟨0, 0, 0, 255⟩ with cfg := ⟨⟨0, 0, 0, 255⟩, .widened, none⟩ })
      (fun t => decide (t.out = [0xfe, 0, 0, 0])) = true := by decide

/-! ### Frame steps and commands (95_test_vectors.md sections 2.7 and 2.8) -/

/-- H-3: the header is big-endian. -/
theorem test_header_H3 :
    after (step { inPhase .eHdr [] with width := 0x01020304, height := 0 })
      (fun t => decide (t.out = [0x71, 0x6f, 0x69, 0x66, 1, 2, 3, 4, 0, 0, 0, 0, 4, 0] ∧ t.phase = .ePad)) = true := by decide

/-- W7: "qoig". -/
theorem test_magic_W7 :
    after (step (inPhase .dMagic [0x71, 0x6f, 0x69, 0x67, 5]))
      (fun t => decide (t.status = 0x0a ∧ t.out = [] ∧ t.inp = [5])) = true := by decide

/-- H-5: channels 7 and colorspace 9 are accepted. -/
theorem test_header_H5 :
    after (step (inPhase .dHdr [0, 0, 0, 1, 0, 0, 0, 1, 7, 9]))
      (fun t => decide (t.channels = 7 ∧ t.colorspace = 9 ∧ t.phase = .dPix)) = true := by decide

/-- H-7. -/
theorem test_end_marker_H7 :
    after (step (inPhase .dPad [1, 0, 0, 0, 0, 0, 0, 1])) (fun t => decide (t.status = 0x12)) = true := by decide

/-- 10_state.md R43: a good DECODE shows the header registers, a bad magic does not. -/
theorem test_observation_of_decode :
    after (step (inPhase .dPad endMarker))
      (fun t => decide (t.observation = some ⟨[], 0x06, some (2, 1, 4, 0)⟩)) = true := by decide

theorem test_observation_of_bad_magic :
    after (step (inPhase .dMagic [0x71, 0x6f, 0x69, 0x67]))
      (fun t => decide (t.observation = some ⟨[], 0x0a, none⟩)) = true := by decide

/-- R43 and D13: an ENCODE shows its bytes and STATUS only. -/
theorem test_observation_of_encode :
    after (step (inPhase .ePad [])) (fun t => decide (t.observation = some ⟨endMarker, 0x06, none⟩)) = true := by decide

/-- X-1. -/
theorem test_refused_X1 :
    refusedAs (step { State.reset with host := [.encode 1 1 5 0] }) .encodeArgs = true := by decide

/-- X-4. -/
theorem test_refused_X4 :
    refusedAs (step { inPhase .ePix [] with host := [.decode 4] }) .busy = true := by decide

/-! ### Witnesses: each shows states and operands that meet all hypotheses of the statement it names, at boundary values -/

theorem witness_DecodeOfEncodeGivesTheOperation :
    (Instr.index 63).WellFormed ∧ (Instr.diff (-2) 1 (-2)).WellFormed ∧ (Instr.luma (-32) (-8) 7).WellFormed ∧
    (Instr.run 1).WellFormed ∧ (Instr.run 62).WellFormed ∧ (Instr.rgb 0 1 2).WellFormed ∧
    (Instr.rgba 0 1 2 3).WellFormed := by decide

theorem witness_EncodeOfDecodeGivesTheBytes : decode [0xfd#8, 7] = .op (.run 62) [7] := by decide

theorem witness_EveryTagByteHasItsMeaning :
    (0x3f#8).toNat ≤ 0x3f ∧ 0x40 ≤ (0x40#8).toNat ∧ (0x7f#8).toNat ≤ 0x7f ∧ 0x80 ≤ (0x80#8).toNat ∧
    (0xbf#8).toNat ≤ 0xbf ∧ 0xc0 ≤ (0xc0#8).toNat ∧ (0xfd#8).toNat ≤ 0xfd ∧ (0xfe#8).toNat = 0xfe ∧
    (0xff#8).toNat = 0xff := by decide

/-- 5 bytes are enough for RGBA and 4 are not. -/
theorem witness_OperationLengthFollowsFromTheTag :
    decode (0xff#8 :: [1, 2, 3, 4]) = .op (.rgba 1 2 3 4) ((0xff#8 :: [1, 2, 3, 4]).drop 5) ∧
    decode (0xff#8 :: [1, 2, 3]) = .cutShort .rgba := by decide

theorem witness_HashMayBeComputedInAnyWidth : 6 ≤ 6 ∧ 6 ≤ 13 := by decide

/-- The six operations: OUT_CH 4 and 3, an unbounded OUT, and one with room for exactly a pixel. -/
theorem witness_CanEmit :
    CanEmit (decoding grey []) ∧ CanEmit { decoding grey [] with outCh := 3 } ∧
    CanEmit { decoding grey [] with cfg := ⟨grey, .wrap8, some 4⟩ } := by
  unfold CanEmit; decide

theorem witness_RgbLoadsThreeChannelsAndInheritsAlpha :
    (decoding grey [0xfe, 1, 2]).phase = .dPix ∧ (decoding grey [0xfe, 1, 2]).host = [] ∧
    (decoding grey [0xfe, 1, 2]).run = 0 ∧ (decoding grey [0xfe, 1, 2]).inp = 0xfe#8 :: [1, 2] ∧
    ([1, 2] : List Byte).length < 3 := by decide

/-- The inner hypotheses: a slot that holds a pixel of its hash, and a cleared slot. -/
theorem witness_IndexLoadsTheSlotVerbatim :
    pixelHash (cacheRead (cacheWrite clearedCache 9 ⟨10, 20, 30, 255⟩) 9) = 9 ∧
    cacheRead (decoding grey []).cache 63 = ⟨0, 0, 0, 0⟩ := by decide

theorem witness_DiffAddsItsDeltasMod256 : 0x40 ≤ (0x40#8).toNat ∧ (0x7f#8).toNat ≤ 0x7f := by decide

theorem witness_LumaAddsItsDeltasMod256 : 0x80 ≤ (0x80#8).toNat ∧ (0xbf#8).toNat ≤ 0xbf := by decide

theorem witness_RunSetsTheCounterAndEmitsPrev :
    0xc0 ≤ (0xc0#8).toNat ∧ (0xfd#8).toNat ≤ 0xfd ∧ 0 ≤ 61 ∧ 61 ≤ 61 := by decide

theorem witness_EveryOperationButRunWritesTheCache :
    (∃ t, exec (.run 62) (decoding grey []) = .next t) ∧ (∃ t, exec (.rgb 1 2 3) (decoding grey []) = .next t) :=
  ⟨⟨_, rfl⟩, ⟨_, rfl⟩⟩

/-- An OUT with no room left. -/
def full (s : State) : State := { s with cfg := ⟨⟨0, 0, 0, 255⟩, .wrap8, some 0⟩ }

theorem witness_StepRunsTheDecodedOperation :
    (decoding grey [0x09]).phase = .dPix ∧ (decoding grey [0x09]).run = 0 ∧
    decode (decoding grey [0x09]).inp = .op (.index 9) [] ∧ (decoding grey [0x09]).host = [] ∧
    (∃ t, exec (.index 9) { decoding grey [0x09] with inp := [], host := [.leave] } = .next t) ∧
    exec (.index 9) { full (decoding grey [0x09]) with inp := [], host := [.leave] } = .fault .waitOutput :=
  ⟨rfl, rfl, by decide, rfl, ⟨_, rfl⟩, rfl⟩

theorem witness_RunRepeatReadsNothing :
    (decoding grey []).phase = .dPix ∧ (decoding grey []).host = [] ∧ 0 < (61#6).toNat ∧ 0 < (1#6).toNat ∧
    CanEmit { decoding grey [] with run := 61 } ∧ CanEmit { decoding grey [] with run := 1 } := by
  unfold CanEmit; decide

theorem witness_RunOperationCoversItsPixels :
    (Instr.run 62).WellFormed ∧ (decoding grey (encode (.run 62))).run = 0 ∧
    (decoding grey (encode (.run 62))).outCh = 4#8 ∧ (decoding grey (encode (.run 62))).cfg.outCap = none ∧
    (decoding grey (encode (.run 62))).inp = encode (.run 62) ++ [] ∧
    (decoding grey (encode (.run 62))).pixcnt.toNat + 62 ≤ (decoding grey (encode (.run 62))).npix := by decide

/-- The image's last pixel is next, and a run of 62 begins there. -/
def atLastPixel : State := { decoding grey (encode (.run 62) ++ endMarker ++ [7]) with width := 1 }

theorem witness_ResidualRunIsDropped :
    (Instr.run 62).WellFormed ∧ atLastPixel.phase = .dPix ∧ atLastPixel.host = [] ∧ atLastPixel.run = 0 ∧
    atLastPixel.status = 1#32 ∧ CanEmit atLastPixel ∧ atLastPixel.pixcnt.toNat + 1 = atLastPixel.npix ∧
    atLastPixel.inp = encode (.run 62) ++ endMarker ++ [7] := by
  unfold CanEmit; decide

theorem witness_MagicCheckReadsFourBytesAndDecides :
    (inPhase .dMagic [0x71, 0x6f, 0x69, 0x66, 9]).phase = .dMagic ∧
    (inPhase .dMagic [0x71, 0x6f, 0x69, 0x66, 9]).host = [] ∧
    (inPhase .dMagic [0x71, 0x6f, 0x69, 0x66, 9]).inp = [0x71#8, 0x6f#8, 0x69#8, 0x66#8] ++ [9] ∧
    (inPhase .dMagic [0x51, 0x4f, 0x49, 0x46]).inp = [0x51, 0x4f, 0x49, 0x46] ++ [] ∧
    ([0x51, 0x4f, 0x49, 0x46] : List Byte) ≠ [0x71#8, 0x6f#8, 0x69#8, 0x66#8] ∧
    (inPhase .dMagic []).status = 1#32 := by decide

theorem witness_HeaderReadLoadsTheRegisters :
    (inPhase .dHdr [0, 0, 0, 1, 0, 0, 0, 1, 7, 9]).phase = .dHdr ∧ (inPhase .dHdr []).host = [] ∧
    (inPhase .dHdr [0, 0, 0, 1, 0, 0, 0, 1, 7, 9]).inp = 0 :: 0 :: 0 :: 1 :: 0 :: 0 :: 0 :: 1 :: 7 :: 9 :: [] ∧
    ∃ t, step (decoding grey [0x09]) = .next t :=
  ⟨rfl, rfl, rfl, ⟨_, rfl⟩⟩

theorem witness_EndMarkerDecidesValidity :
    (inPhase .dPad [0, 0, 0, 0, 0, 0, 0, 1]).phase = .dPad ∧ (inPhase .dPad []).host = [] ∧
    (inPhase .dPad [0, 0, 0, 0, 0, 0, 0, 1]).inp = [0#8, 0#8, 0#8, 0#8, 0#8, 0#8, 0#8, 1#8] ++ [] ∧
    (inPhase .dPad [1, 0, 0, 0, 0, 0, 0, 1]).inp = [1, 0, 0, 0, 0, 0, 0, 1] ++ [] ∧
    ([1, 0, 0, 0, 0, 0, 0, 1] : List Byte) ≠ [0#8, 0#8, 0#8, 0#8, 0#8, 0#8, 0#8, 1#8] ∧
    (inPhase .dPad []).status = 1#32 := by decide

theorem witness_HeaderWriterEmitsFourteenBytes :
    (inPhase .eHdr []).phase = .eHdr ∧ (inPhase .eHdr []).host = [] ∧ (inPhase .eHdr []).accepts 14 = true := by decide

theorem witness_EncoderPixelBecomesPrev :
    (encoding grey grey).phase = .ePix ∧ (encoding grey grey).host = [] ∧ (encoding grey grey).channels = 4#8 ∧
    (∃ t, step (encoding grey grey) = .next t) ∧
    ∃ t, step { encoding grey grey with channels := 3 } = .next t :=
  ⟨rfl, rfl, rfl, ⟨_, rfl⟩, ⟨_, rfl⟩⟩

theorem witness_ReadsPixel (prev px : Pixel) : ReadsPixel (encoding prev px) px [] := by
  cases px
  exact ⟨rfl, rfl, .inr rfl, rfl⟩

theorem witness_ReadsPixel_three_channels :
    ReadsPixel { encoding grey ⟨1, 2, 3, 255⟩ with channels := 3 } ⟨1, 2, 3, 255⟩ [255] :=
  ⟨rfl, rfl, .inl ⟨rfl, rfl⟩, rfl⟩

/-- With witness_ReadsPixel. -/
theorem witness_RepeatedPixelIsOnlyCounted :
    grey = (encoding grey grey).prev ∧ (60#6).toNat < 61 ∧
    (encoding grey grey).pixcnt.toNat + 1 ≠ (encoding grey grey).npix := by decide

/-- With witness_ReadsPixel: the two cases of the flush. -/
theorem witness_FullOrLastRunIsFlushed :
    grey = (encoding grey grey).prev ∧ (61#6).toNat = 61 ∧ (encoding grey grey).accepts 1 = true ∧
    (encoding grey grey).run.toNat ≤ 61 ∧
    ({ encoding grey grey with width := 1 } : State).pixcnt.toNat + 1 = ({ encoding grey grey with width := 1 } : State).npix := by
  decide

/-- With witness_ReadsPixel. -/
theorem witness_PendingRunIsFlushedFirst :
    (⟨1, 2, 3, 255⟩ : Pixel) ≠ (encoding grey ⟨1, 2, 3, 255⟩).prev ∧ 0 < (1#6).toNat ∧ (61#6).toNat ≤ 61 ∧
    (encoding grey ⟨1, 2, 3, 255⟩).accepts 6 = true := by decide

/-- The hypotheses the five selections share, beside witness_ReadsPixel: a different pixel and a run in range. -/
theorem witness_selection (s : State) (n : Nat) (h : s.cfg.outCap = none) :
    s.accepts ((pendingRun s).length + n) = true ∧ (0#6).toNat ≤ 61 ∧ (61#6).toNat ≤ 61 := by
  refine ⟨?_, by decide, by decide⟩
  rw [State.accepts, h]

theorem witness_CacheHitIsWrittenAsIndex :
    (⟨10, 20, 30, 255⟩ : Pixel) ≠ grey ∧
    cacheRead (cacheWrite clearedCache 9 ⟨10, 20, 30, 255⟩) (pixelHash ⟨10, 20, 30, 255⟩) = ⟨10, 20, 30, 255⟩ := by decide

theorem witness_ChangedAlphaIsWrittenAsRgba :
    (⟨101, 100, 100, 254⟩ : Pixel) ≠ grey ∧ cacheRead clearedCache (pixelHash ⟨101, 100, 100, 254⟩) ≠ ⟨101, 100, 100, 254⟩ ∧
    (254#8 : Byte) ≠ grey.a := by decide

/-- T-2 and T-3: DIFF at its two bounds. -/
theorem witness_SmallDeltasAreWrittenAsDiff :
    deltasOf .wrap8 ⟨98, 98, 98, 255⟩ grey = (-2, -2, -2) ∧ deltasOf .wrap8 ⟨101, 101, 101, 255⟩ grey = (1, 1, 1) ∧
    (⟨98, 98, 98, 255⟩ : Pixel) ≠ grey ∧ (255#8 : Byte) = grey.a ∧
    cacheRead clearedCache (pixelHash ⟨98, 98, 98, 255⟩) ≠ ⟨98, 98, 98, 255⟩ := by decide

/-- T-11 and T-12: LUMA at its bounds. -/
theorem witness_GreenBiasedDeltasAreWrittenAsLuma :
    deltasOf .wrap8 ⟨60, 68, 60, 255⟩ grey = (-40, -32, -40) ∧ deltasOf .wrap8 ⟨138, 131, 124, 255⟩ grey = (38, 31, 24) ∧
    (⟨60, 68, 60, 255⟩ : Pixel) ≠ grey ∧ (255#8 : Byte) = grey.a ∧
    cacheRead clearedCache (pixelHash ⟨60, 68, 60, 255⟩) ≠ ⟨60, 68, 60, 255⟩ ∧
    -8 ≤ (-40 : Int) - -32 ∧ (38 : Int) - 31 ≤ 7 ∧ -8 ≤ (24 : Int) - 31 := by decide

/-- T-14 and T-16: one past a LUMA bound. -/
theorem witness_OtherPixelsAreWrittenAsRgb :
    deltasOf .wrap8 ⟨139, 131, 124, 255⟩ grey = (39, 31, 24) ∧ deltasOf .wrap8 ⟨67, 67, 67, 255⟩ grey = (-33, -33, -33) ∧
    (⟨67, 67, 67, 255⟩ : Pixel) ≠ grey ∧ (255#8 : Byte) = grey.a ∧
    cacheRead clearedCache (pixelHash ⟨67, 67, 67, 255⟩) ≠ ⟨67, 67, 67, 255⟩ ∧
    ¬ ((39 : Int) - 31 ≤ 7) ∧ ¬ (-32 ≤ (-33 : Int)) := by decide

theorem witness_DeltaModesAndTheLumaTest : deltasOf .wrap8 ⟨0, 0, 0, 255⟩ ⟨255, 255, 255, 255⟩ = (1, 1, 1) := by decide

theorem witness_EndMarkerWriterFinishesValid :
    (inPhase .ePad []).phase = .ePad ∧ (inPhase .ePad []).host = [] ∧ (inPhase .ePad []).accepts 8 = true ∧
    (inPhase .ePad []).status = 1#32 := by decide

theorem witness_EncoderRaisesNoError :
    (inPhase .ePad []).host = [] ∧ (inPhase .ePad []).phase.encoding = true ∧
    ∃ t, step (inPhase .ePad []) = .next t ∧ t.phase = .done :=
  ⟨rfl, rfl, _, rfl, rfl⟩

theorem witness_EncodeAcceptanceStartsTheCommand :
    State.reset.phase = .idle ∧ (inPhase .done []).phase = .done ∧
    ({ State.reset with host := [.encode 0 5 3 1] } : State).host = .encode 0 5 3 1 :: [] ∧
    ((3#8 : Byte) = 3#8 ∨ (3#8 : Byte) = 4#8) ∧ ((1#8 : Byte) = 0#8 ∨ (1#8 : Byte) = 1#8) ∧
    ¬ (((5#8 : Byte) = 3#8 ∨ (5#8 : Byte) = 4#8) ∧ ((1#8 : Byte) = 0#8 ∨ (1#8 : Byte) = 1#8)) := by decide

theorem witness_DecodeAcceptanceStartsTheCommand :
    State.reset.phase = .idle ∧ (inPhase .done []).phase = .done ∧
    ({ State.reset with host := [.decode 4] } : State).host = .decode 4 :: [] ∧
    ((4#8 : Byte) = 3#8 ∨ (4#8 : Byte) = 4#8) ∧ ¬ ((2#8 : Byte) = 3#8 ∨ (2#8 : Byte) = 4#8) := by decide

theorem witness_OnlyIllegalCommandsAreRefused :
    step { inPhase .ePix [] with host := [.encode 1 1 5 0] } = .refused .busy ∧
    step { State.reset with host := [.encode 1 1 4 2] } = .refused .encodeArgs ∧
    step { State.reset with host := [.decode 2] } = .refused .decodeArgs :=
  ⟨rfl, rfl, rfl⟩

theorem witness_NothingPersistsAcrossCommands :
    State.reset.phase = .idle ∧ (inPhase .done []).phase = .done ∧
    ({ State.reset with host := [.decode 4] } : State).host = .decode 4 :: [] ∧
    ∃ t, step { State.reset with host := [.decode 4] } = .next t :=
  ⟨rfl, rfl, rfl, ⟨_, rfl⟩⟩

/-- One byte short in each phase that reads, and the two rest phases. -/
theorem witness_ShortInputAndRestHaveNoMove :
    (inPhase .ePix [1, 2, 3]).inp.length < (inPhase .ePix [1, 2, 3]).channels.toNat ∧
    (inPhase .dMagic [1, 2, 3]).inp.length < 4 ∧ (inPhase .dHdr [0, 0, 0, 1, 0, 0, 0, 1, 4]).inp.length < 10 ∧
    (inPhase .dPad [0, 0, 0, 0, 0, 0, 0]).inp.length < 8 ∧ (inPhase .dPix [0xfe, 1, 2]).run = 0 ∧
    (∀ i rest, decode (inPhase .dPix [0xfe, 1, 2]).inp ≠ .op i rest) ∧ (inPhase .idle []).phase = .idle ∧
    ({ inPhase .dPix [0xfe, 1, 2] with host := [.leave] } : State).host = .leave :: [] := by
  refine ⟨by decide, by decide, by decide, by decide, rfl, ?_, rfl, rfl⟩
  intro i rest h
  rw [show decode (inPhase .dPix [0xfe, 1, 2]).inp = .cutShort .rgb by decide] at h
  cases h

theorem witness_FullOutputHasNoMove :
    (full (inPhase .eHdr [])).accepts 14 = false ∧ (full (inPhase .ePad [])).accepts 8 = false ∧
    (full (inPhase .dPix [0x09])).outCh = 4#8 ∧ (full (inPhase .dPix [0x09])).accepts 4 = false ∧
    decode (full (inPhase .dPix [0x09])).inp = .op (.index 9) [] ∧ 0 < (1#6).toNat := by decide

/-- The clause of the encoder's pixel step: T-1 writes one byte, and OUT has room for none. -/
theorem witness_FullOutputHasNoMove_encoder :
    (full (encoding grey ⟨98, 101, 98, 255⟩)).phase = .ePix ∧
    (∃ u bytes,
      step { full (encoding grey ⟨98, 101, 98, 255⟩) with host := [], cfg := ⟨⟨0, 0, 0, 255⟩, .wrap8, none⟩ } = .next u ∧
      WroteBytes bytes (full (encoding grey ⟨98, 101, 98, 255⟩)) u ∧
      (full (encoding grey ⟨98, 101, 98, 255⟩)).accepts bytes.length = false) ∧
    ({ full (encoding grey ⟨98, 101, 98, 255⟩) with host := [.leave] } : State).host = .leave :: [] :=
  ⟨rfl, ⟨_, [0x4c], rfl, by unfold WroteBytes; decide, by decide⟩, rfl⟩

theorem witness_HostMoves :
    ({ State.reset with host := [.reset] } : State).host = .reset :: [] ∧
    ({ State.reset with host := [.supply [1, 2]] } : State).host = .supply [1, 2] :: [] ∧
    ({ State.reset with host := [.take 1] } : State).host = .take 1 :: [] := by decide

theorem witness_PhasesMoveByTheTable :
    (decoding grey [0x09]).PixcntMatchesPhase ∧ (∃ t, step (decoding grey [0x09]) = .next t) ∧
    (decoding grey [0x09]).host.head? ≠ some .reset := by
  refine ⟨?_, ⟨_, rfl⟩, by decide⟩
  unfold State.PixcntMatchesPhase; decide

theorem witness_OnlyEncodeAndTheHeaderReadWriteWidthAndHeight :
    ∃ t, step (inPhase .dHdr [0, 0, 0, 1, 0, 0, 0, 1, 7, 9]) = .next t ∧
      t.width ≠ (inPhase .dHdr [0, 0, 0, 1, 0, 0, 0, 1, 7, 9]).width :=
  ⟨_, rfl, by decide⟩

theorem witness_StreamsMoveInOrder :
    (decoding grey [0xfd]).host = [] ∧ ∃ t, step (decoding grey [0xfd]) = .next t :=
  ⟨rfl, ⟨_, rfl⟩⟩

/-- A state in the middle of a DECODE that meets every invariant and can step. -/
theorem witness_invariants :
    (decoding grey [0xfd]).Inv ∧ ∃ t, step (decoding grey [0xfd]) = .next t := by
  refine ⟨⟨?_, ?_, ?_, ?_, ?_, ?_, ?_⟩, ⟨_, rfl⟩⟩
  · unfold State.StatusMatchesPhase; decide
  · unfold State.RunInRange; decide
  · exact fun _ _ => .inl (by simp [decoding, State.reset, cacheRead])
  · unfold State.PixcntMatchesPhase; decide
  · unfold State.ArgumentsLegal; decide
  · unfold State.NoPendingRun; decide
  · unfold State.CommandMatchesPhase; decide

/-- RUN at the top of its range, in the encoder: the next repeat would make 62. -/
theorem witness_RunStaysBelowSixtyTwo :
    ({ encoding grey grey with run := 61 } : State).RunInRange ∧ ∃ t, step { encoding grey grey with run := 61 } = .next t := by
  refine ⟨?_, ⟨_, rfl⟩⟩
  unfold State.RunInRange; decide

/-- From a state of the invariants the machine waits only when the host has no move left. -/
theorem witness_OnlyWaitsAndRefusalsStopAStep : step (decoding grey []) = .fault .waitInput := rfl

theorem witness_DecoderIgnoresDeltaMode :
    (decoding grey [0xfd]).host = [] ∧ (decoding grey [0xfd]).phase.decoding = true ∧
    ∃ t, step (decoding grey [0xfd]) = .next t :=
  ⟨rfl, rfl, ⟨_, rfl⟩⟩

/-- P1 of section 3: a 1 × 1 image, and a host that encodes it. -/
def encodesP1 : State := { State.reset with host := [.encode 1 1 4 0], inp := [0, 0, 0, 255, 9] }

theorem witness_StartsEncode : StartsEncode encodesP1 1 1 4 0 [0, 0, 0, 255] [9] := by
  unfold StartsEncode; decide

theorem witness_EncodedBytesDependOnTheImageAlone :
    StartsEncode encodesP1 1 1 4 0 [0, 0, 0, 255] [9] ∧
    StartsEncode { encodesP1 with out := [5], run := 3, inp := [0, 0, 0, 255] } 1 1 4 0 [0, 0, 0, 255] [] := by
  unfold StartsEncode; decide

/-- 63 pixels equal to PREV_INIT. -/
theorem witness_UniformImageIsRunsOnly :
    StartsEncode
      { State.reset with
        host := [.encode 63 1 3 0], inp := (List.replicate 63 (rawPixel 3#8 ⟨0, 0, 0, 255⟩)).flatten ++ [] }
      63 1 3 0 (List.replicate ((63#32).toNat * (1#32).toNat) (rawPixel 3#8 ⟨0, 0, 0, 255⟩)).flatten [] ∧
    State.reset.cfg.prevInit = ⟨0, 0, 0, 255⟩ ∧ 62 < (63#32).toNat * (1#32).toNat := by
  have e : (63#32).toNat * (1#32).toNat = 63 := by decide
  rw [e]
  refine ⟨⟨rfl, rfl, .inl rfl, .inl rfl, rfl, ?_, rfl⟩, rfl, by decide⟩
  rw [List.length_flatten, List.map_replicate, List.sum_replicate]
  rfl

theorem witness_CommandsTakeBoundedSteps :
    (inPhase .eHdr []).host = [] ∧ (inPhase .eHdr []).PixcntMatchesPhase ∧
    (∃ t, Host.Core.run Sys2Proof.core 1 (inPhase .eHdr []) = .next t) ∧
    (inPhase .dMagic []).PixcntMatchesPhase ∧
    ∃ t, Host.Core.run Sys2Proof.core 1 (inPhase .dMagic magicBytes) = .next t := by
  refine ⟨rfl, ?_, ⟨_, rfl⟩, ?_, ⟨_, rfl⟩⟩ <;> (unfold State.PixcntMatchesPhase; decide)

/-- The stream of P1 of section 3, 23 bytes. -/
def streamP1 : List Byte :=
  [0x71, 0x6f, 0x69, 0x66, 0, 0, 0, 1, 0, 0, 0, 1, 4, 0, 0xc0, 0, 0, 0, 0, 0, 0, 0, 1]

/-- A host that decodes it. -/
def decodesP1 : State := { State.reset with host := [.decode 4], inp := streamP1 ++ [9] }

theorem test_encode_P1 :
    after (Host.Core.run Sys2Proof.core 4 encodesP1) (fun t => decide (t.written = streamP1 ∧ t.status = 0x06)) = true := by
  decide

theorem witness_DecodeOfEncodeIsTheImage :
    StartsEncode encodesP1 1 1 4 0 [0, 0, 0, 255] [9] ∧
    (∃ e', Host.Core.run Sys2Proof.core ((1#32).toNat * (1#32).toNat + 3) encodesP1 = .next e' ∧ e'.written = streamP1) ∧
    StartsDecode decodesP1 4 streamP1 [9] ∧ decodesP1.cfg.prevInit = encodesP1.cfg.prevInit ∧
    1 ≤ (1#32).toNat * (1#32).toNat := by
  refine ⟨witness_StartsEncode, ⟨_, rfl, by decide⟩, ?_, rfl, by decide⟩
  unfold StartsDecode; decide

end Sys2Proof.Tests
end

/-! SUPPORT. Command start (10_state.md R38, R45; 70_reset_and_hazards.md R152): accepting a command reads none of the
registers that the command before it used, and gives every one of them its start value. -/

namespace Sys2Proof.Machine

/-- The move issues a command (10_state.md R39). -/
def HostMove.IsCommand (m : HostMove) : Prop := (∃ w h c cs, m = .encode w h c cs) ∨ ∃ oc, m = .decode oc

/-- The state with everything that accepting a command overwrites, whichever command it is, at a fixed value: what is left is
all that an acceptance at rest can depend on. -/
def State.forgetLeftovers (s : State) : State := { startCommand s with phase := .idle, command := none }

/-- The registers that a command start sets, at their start values (10_state.md R45). -/
structure State.AtStartValues (init : Pixel) (t : State) : Prop where
  cache : ∀ i, cacheRead t.cache i = ⟨0, 0, 0, 0⟩
  prev : t.prev = init
  run : t.run = 0
  pixcnt : t.pixcnt = 0
  status : t.status = statusAtStart

theorem startCommand_atStartValues (s : State) : (startCommand s).AtStartValues s.cfg.prevInit :=
  ⟨fun i => cacheRead_clearedCache i, rfl, rfl, rfl, rfl⟩

/-- STATUS at command start has BUSY = 1 and all other fields 0 (10_state.md R45). -/
theorem State.AtStartValues.statusFields {init : Pixel} {t : State} (h : t.AtStartValues init) :
    t.busy = true ∧ t.isDone = false ∧ t.valid = false ∧ t.errMagic = false ∧ t.errPad = false := by
  simp only [State.busy, State.isDone, State.valid, State.errMagic, State.errPad, h.status]
  decide

theorem acceptEncode_ignores_leftovers {s u : State} (w h : BitVec 32) (c cs : Byte) (hs : s.atRest = true)
    (hu : u.atRest = true) (e : s.forgetLeftovers = u.forgetLeftovers) :
    acceptEncode w h c cs s = acceptEncode w h c cs u := by
  have started :
      { startCommand s with width := w, height := h, channels := c, colorspace := cs, phase := .eHdr, command := some .encode } =
      { startCommand u with width := w, height := h, channels := c, colorspace := cs, phase := .eHdr, command := some .encode } :=
    congrArg (fun v : State =>
      { v with width := w, height := h, channels := c, colorspace := cs, phase := .eHdr, command := some .encode }) e
  rw [acceptEncode_at_rest hs, acceptEncode_at_rest hu, started]

theorem acceptDecode_ignores_leftovers {s u : State} (oc : Byte) (hs : s.atRest = true) (hu : u.atRest = true)
    (e : s.forgetLeftovers = u.forgetLeftovers) : acceptDecode oc s = acceptDecode oc u := by
  have started :
      { startCommand s with outCh := oc, phase := .dMagic, command := some .decode } =
      { startCommand u with outCh := oc, phase := .dMagic, command := some .decode } :=
    congrArg (fun v : State => { v with outCh := oc, phase := .dMagic, command := some .decode }) e
  rw [acceptDecode_at_rest hs, acceptDecode_at_rest hu, started]

/-- Two states at rest that differ in leftovers only answer a command alike (10_state.md R38). -/
theorem commandTurn_ignores_leftovers {m : HostMove} {s u : State} (hm : m.IsCommand) (hs : s.atRest = true)
    (hu : u.atRest = true) (e : s.forgetLeftovers = u.forgetLeftovers) : hostTurn m s = hostTurn m u := by
  obtain ⟨w, h, c, cs, rfl⟩ | ⟨oc, rfl⟩ := hm
  · exact acceptEncode_ignores_leftovers w h c cs hs hu e
  · exact acceptDecode_ignores_leftovers oc hs hu e

/-- The same of a whole step, whose next host move is the command. -/
theorem step_command_ignores_leftovers {m : HostMove} {ms : List HostMove} {s u : State} (hm : m.IsCommand)
    (h : s.host = m :: ms) (hs : s.atRest = true) (hu : u.atRest = true)
    (e : s.forgetLeftovers = u.forgetLeftovers) : step s = step u := by
  have hu' : u.host = m :: ms := (congrArg State.host e).symm.trans h
  rw [step_of_move h, step_of_move hu']
  exact commandTurn_ignores_leftovers hm hs hu (congrArg (fun v : State => { v with host := ms }) e)

/-- An accepted command leaves every register of R45 at its start value (70_reset_and_hazards.md R152). -/
theorem commandTurn_next_atStartValues {m : HostMove} {s t : State} (hm : m.IsCommand) (h : hostTurn m s = .next t) :
    t.AtStartValues s.cfg.prevInit := by
  obtain ⟨cache, prev, run, pixcnt, status⟩ := startCommand_atStartValues s
  obtain ⟨w, ht, c, cs, rfl⟩ | ⟨oc, rfl⟩ := hm
  · obtain ⟨-, -, -, rfl⟩ := acceptEncode_next h
    exact ⟨cache, prev, run, pixcnt, status⟩
  · obtain ⟨-, -, rfl⟩ := acceptDecode_next h
    exact ⟨cache, prev, run, pixcnt, status⟩

/-- Settles O38: the two states of the claim are equal once their leftovers are forgotten, and a command's acceptance at rest
depends on nothing else. -/
theorem nothingPersistsAcrossCommands : Obligations.NothingPersistsAcrossCommands := by
  intro s m ms phase cache prev run pixcnt status written command hs hp hhost hm
  constructor
  · have sameBesideLeftovers :
        { s with
          phase := phase, cache := cache, prev := prev, run := run, pixcnt := pixcnt, status := status,
          written := written, command := command }.forgetLeftovers = s.forgetLeftovers := rfl
    exact step_command_ignores_leftovers hm hhost ((atRest_iff _).mpr hp) ((atRest_iff _).mpr hs) sameBesideLeftovers
  · intro t ht
    rw [step_of_move hhost] at ht
    have start := commandTurn_next_atStartValues hm ht
    exact ⟨start.cache, start.prev, start.run, start.pixcnt, start.statusFields⟩

end Sys2Proof.Machine

/-! SUPPORT. What each tag byte means, by its number (30_encoding.md R79): the classifier of R76 in arithmetic, and the decoder's
reading in each range. -/

namespace Sys2Proof

theorem topTwoBits_eq_iff (b0 : Byte) (c : BitVec 2) : b0.extractLsb' 6 2 = c ↔ b0.toNat / 64 = c.toNat := by
  have : (b0.extractLsb' 6 2).toNat = b0.toNat / 64 := by
    rw [BitVec.extractLsb'_toNat, Nat.shiftRight_eq_div_pow]
    omega
  rw [BitVec.toNat_eq, this]

theorem toNat_lowSixBits (b0 : Byte) : (b0.extractLsb' 0 6).toNat = b0.toNat % 64 := by
  rw [BitVec.extractLsb'_toNat, Nat.shiftRight_zero]

/-- The classifier in arithmetic: the two literal tags by their numbers, the others by the quarter of the byte values they lie
in (30_encoding.md R76). -/
theorem tagClass_eq_toNat (b0 : Byte) :
    tagClass b0 =
      if b0.toNat = 0xfe then .rgb else if b0.toNat = 0xff then .rgba else if b0.toNat / 64 = 0 then .index
      else if b0.toNat / 64 = 1 then .diff else if b0.toNat / 64 = 2 then .luma else .run := by
  simp only [tagClass, topTwoBits_eq_iff, BitVec.toNat_eq (x := b0)]
  rfl

theorem decode_cons_of_tagClass {b0 : Byte} {c : TagClass} (h : tagClass b0 = c) (rest : List Byte) :
    decode (b0 :: rest) = decodeTagged b0 rest c := by
  rw [decode, h]

theorem decode_index_tag {b0 : Byte} (h : b0.toNat ≤ 0x3f) (rest : List Byte) :
    decode (b0 :: rest) = .op (indexOf b0) rest := by
  have tag : tagClass b0 = .index := by simp (disch := omega) only [tagClass_eq_toNat, if_neg, if_pos]
  exact decode_cons_of_tagClass tag rest

theorem decode_diff_tag {b0 : Byte} (lo : 0x40 ≤ b0.toNat) (hi : b0.toNat ≤ 0x7f) (rest : List Byte) :
    decode (b0 :: rest) = .op (diffOf b0) rest := by
  have tag : tagClass b0 = .diff := by simp (disch := omega) only [tagClass_eq_toNat, if_neg, if_pos]
  exact decode_cons_of_tagClass tag rest

theorem decode_luma_tag {b0 : Byte} (lo : 0x80 ≤ b0.toNat) (hi : b0.toNat ≤ 0xbf) (b1 : Byte) (rest : List Byte) :
    decode (b0 :: b1 :: rest) = .op (lumaOf b0 b1) rest := by
  have tag : tagClass b0 = .luma := by simp (disch := omega) only [tagClass_eq_toNat, if_neg, if_pos]
  exact decode_cons_of_tagClass tag (b1 :: rest)

theorem decode_run_tag {b0 : Byte} (lo : 0xc0 ≤ b0.toNat) (hi : b0.toNat ≤ 0xfd) (rest : List Byte) :
    decode (b0 :: rest) = .op (runOf b0) rest := by
  have tag : tagClass b0 = .run := by simp (disch := omega) only [tagClass_eq_toNat, if_neg]
  exact decode_cons_of_tagClass tag rest

theorem decode_rgb_tag {b0 : Byte} (h : b0.toNat = 0xfe) (r g b : Byte) (rest : List Byte) :
    decode (b0 :: r :: g :: b :: rest) = .op (.rgb r g b) rest := by
  have tag : tagClass b0 = .rgb := by rw [tagClass_eq_toNat, if_pos h]
  exact decode_cons_of_tagClass tag (r :: g :: b :: rest)

theorem decode_rgba_tag {b0 : Byte} (h : b0.toNat = 0xff) (r g b a : Byte) (rest : List Byte) :
    decode (b0 :: r :: g :: b :: a :: rest) = .op (.rgba r g b a) rest := by
  have tag : tagClass b0 = .rgba := by simp (disch := omega) only [tagClass_eq_toNat, if_neg, if_pos]
  exact decode_cons_of_tagClass tag (r :: g :: b :: a :: rest)

/-- The six bits of a RUN tag count from the first tag of the class (30_encoding.md R73, R79). -/
theorem runOf_eq {b0 : Byte} (lo : 0xc0 ≤ b0.toNat) : runOf b0 = .run (b0.toNat - 0xc0 + 1) := by
  have field : b0.toNat % 64 = b0.toNat - 0xc0 := by omega
  rw [runOf, toNat_lowSixBits, field]

/-- Settles O3: the tag byte's range gives its class, and the class its reading. An INDEX tag is its own slot number, since its
top two bits are 0. -/
theorem everyTagByteHasItsMeaning : Obligations.EveryTagByteHasItsMeaning := by
  intro b0 rest
  refine ⟨fun h => ?index, fun ⟨lo, hi⟩ => ?diff, fun ⟨lo, hi⟩ b1 => ?luma, fun ⟨lo, hi⟩ => ?run, ?rgb, ?rgba⟩
  case index =>
    have slot : (b0.extractLsb' 0 6).toNat = b0.toNat := by rw [toNat_lowSixBits]; omega
    exact ⟨_, decode_index_tag h rest, slot⟩
  case diff => exact ⟨_, _, _, decode_diff_tag lo hi rest⟩
  case luma => exact ⟨_, _, _, decode_luma_tag lo hi b1 rest⟩
  case run => rw [decode_run_tag lo hi, runOf_eq lo]
  case rgb => exact fun h r g b => decode_rgb_tag h r g b rest
  case rgba => exact fun h r g b a => decode_rgba_tag h r g b a rest

end Sys2Proof

/-! SUPPORT. The hash (40_hash_cache.md R84): the slot's number is the weighted sum's remainder by 2 ^ 6. -/

namespace Sys2Proof.Machine

/-- Settles O6: the hash is the exact sum cut to the 6 bits of a slot, and cutting to 6 bits is the remainder by 64. -/
theorem hashIsTheWeightedSumMod64 : Obligations.HashIsTheWeightedSumMod64 := by
  intro p
  rw [pixelHash, BitVec.toNat_ofNat]

end Sys2Proof.Machine

/-! SUPPORT. The bytes of the operations as numbers (30_encoding.md R70 to R73): each field is a digit, its weight the size of
the fields below it. -/

namespace Sys2Proof

theorem toNat_append_eq_add {v w : Nat} (x : BitVec v) (y : BitVec w) :
    (x ++ y).toNat = x.toNat * 2 ^ w + y.toNat := by
  rw [BitVec.toNat_append, ← Nat.shiftLeft_add_eq_or_of_lt y.isLt, Nat.shiftLeft_eq]

/-- The field of an operand in range is the operand plus the bias (30_encoding.md R83). -/
theorem toNat_biasField {w bias : Nat} {d : Int} (lo : 0 ≤ d + bias) (hi : d + bias < 2 ^ w) :
    ((biasField w bias d).toNat : Int) = d + bias := by
  have h := unbias_biasField bias d lo hi
  rw [unbias] at h
  omega

theorem encode_index_eq (i : Slot) : ∃ b : Byte, encode (.index i) = [b] ∧ b.toNat = i.toNat := by
  refine ⟨_, rfl, ?_⟩
  rw [toNat_append_eq_add]
  simp

/-- DIFF as a number (30_encoding.md R71). -/
theorem encode_diff_eq {dr dg db : Int} (hr : -2 ≤ dr ∧ dr ≤ 1) (hg : -2 ≤ dg ∧ dg ≤ 1) (hb : -2 ≤ db ∧ db ≤ 1) :
    ∃ b : Byte, encode (.diff dr dg db) = [b] ∧ (b.toNat : Int) = 0x40 + (dr + 2) * 16 + (dg + 2) * 4 + (db + 2) := by
  have field {d : Int} (h : -2 ≤ d ∧ d ≤ 1) : ((biasField 2 2 d).toNat : Int) = d + 2 :=
    toNat_biasField (by omega) (by omega)
  refine ⟨_, rfl, ?_⟩
  have tagRed := toNat_append_eq_add 0b01#2 (biasField 2 2 dr)
  have upToGreen := toNat_append_eq_add (0b01#2 ++ biasField 2 2 dr) (biasField 2 2 dg)
  have byte := toNat_append_eq_add (0b01#2 ++ biasField 2 2 dr ++ biasField 2 2 dg) (biasField 2 2 db)
  have tag : (0b01#2).toNat = 1 := rfl
  have := field hr
  have := field hg
  have := field hb
  omega

/-- LUMA as two numbers (30_encoding.md R72). -/
theorem encode_luma_eq {dg drdg dbdg : Int} (hg : -32 ≤ dg ∧ dg ≤ 31) (hr : -8 ≤ drdg ∧ drdg ≤ 7)
    (hb : -8 ≤ dbdg ∧ dbdg ≤ 7) :
    ∃ b0 b1 : Byte, encode (.luma dg drdg dbdg) = [b0, b1] ∧ (b0.toNat : Int) = 0x80 + (dg + 32) ∧
      (b1.toNat : Int) = (drdg + 8) * 16 + (dbdg + 8) := by
  have green : ((biasField 6 32 dg).toNat : Int) = dg + 32 := toNat_biasField (by omega) (by omega)
  have nibble {d : Int} (h : -8 ≤ d ∧ d ≤ 7) : ((biasField 4 8 d).toNat : Int) = d + 8 :=
    toNat_biasField (by omega) (by omega)
  refine ⟨_, _, rfl, ?_, ?_⟩
  · have byte := toNat_append_eq_add 0b10#2 (biasField 6 32 dg)
    have tag : (0b10#2).toNat = 2 := rfl
    omega
  · have byte := toNat_append_eq_add (biasField 4 8 drdg) (biasField 4 8 dbdg)
    have := nibble hr
    have := nibble hb
    omega

/-- RUN as a number (30_encoding.md R73). A run of 63 or 64 pixels has no encoding, but the formula is the same. -/
theorem encode_run_eq {k : Nat} (lo : 1 ≤ k) (hi : k ≤ 64) : encode (.run k) = [BitVec.ofNat 8 (0xc0 + (k - 1))] := by
  have byte : (0b11#2 ++ BitVec.ofNat 6 (k - 1) : Byte) = BitVec.ofNat 8 (0xc0 + (k - 1)) := by
    apply BitVec.eq_of_toNat_eq
    rw [toNat_append_eq_add]
    simp only [BitVec.toNat_ofNat]
    omega
  rw [encode, byte]

/-- A u32 most significant byte first, by division (20_memory.md R48). -/
theorem bytesOfU32_eq (v : BitVec 32) :
    bytesOfU32 v = [BitVec.ofNat 8 (v.toNat / 2 ^ 24), BitVec.ofNat 8 (v.toNat / 2 ^ 16),
      BitVec.ofNat 8 (v.toNat / 2 ^ 8), BitVec.ofNat 8 v.toNat] := by
  simp only [bytesOfU32, BitVec.extractLsb', Nat.shiftRight_eq_div_pow, Nat.pow_zero, Nat.div_one]

/-- No operation takes more than 5 bytes (30_encoding.md R77). -/
theorem length_encode_le_five (i : Instr) : (encode i).length ≤ 5 := by
  rw [length_encode]
  cases i <;> simp [Instr.tag, TagClass.length]

end Sys2Proof

/-! SUPPORT. STATUS field by field (10_state.md R34): what a write of one field, and the end of a command, leave in the others. -/

namespace Sys2Proof.Machine

theorem getLsbD_setField {bit : Nat} (hb : bit < 32) (v : Bool) (w : BitVec 32) (i : Nat) :
    (setField bit v w).getLsbD i = if i = bit then v else w.getLsbD i := by
  have mask : (1#32 <<< bit).getLsbD i = decide (i = bit) := by
    rw [← BitVec.twoPow_eq, BitVec.getLsbD_twoPow, decide_eq_true hb, Bool.true_and]
    simp only [eq_comm]
  cases v
  case true =>
    rw [setField, if_pos rfl, BitVec.getLsbD_or, mask]
    by_cases h : i = bit <;> simp [h]
  case false =>
    rw [setField, if_neg Bool.false_ne_true, BitVec.getLsbD_and, BitVec.getLsbD_not, mask]
    by_cases h : i = bit
    · simp [h]
    · simpa [h] using fun hw => BitVec.lt_of_getLsbD hw

theorem getLsbD_statusEnd (w : BitVec 32) (i : Nat) :
    (statusEnd w).getLsbD i = if i = doneBit then true else if i = busyBit then false else w.getLsbD i := by
  rw [statusEnd, getLsbD_setField (by decide), getLsbD_setField (by decide)]

theorem finishValid_status_getLsbD (s : State) (i : Nat) :
    (finishValid s).status.getLsbD i =
      if i = doneBit then true else if i = busyBit then false else if i = validBit then true else s.status.getLsbD i := by
  rw [finishValid_status, getLsbD_statusEnd, getLsbD_setField (by decide)]

end Sys2Proof.Machine

/-! SUPPORT. The encoder's frame (41_encoder.md): acceptance of ENCODE, the header writer and the end-marker writer. -/

namespace Sys2Proof.Machine

/-- Settles O35: at rest acceptance is decided by the arguments alone, and an accepted command stands at the start values. -/
theorem encodeAcceptanceStartsTheCommand : Obligations.EncodeAcceptanceStartsTheCommand := by
  intro s w h c cs ms hrest hhost
  have answer := (step_of_move hhost).trans
    (acceptEncode_at_rest (s := { s with host := ms }) ((atRest_iff _).mpr hrest))
  constructor
  · intro illegal
    rw [answer, if_neg illegal]
  · intro hc hcs
    rw [if_pos ⟨hc, hcs⟩] at answer
    obtain ⟨cache, prev, run, pixcnt, status⟩ := startCommand_atStartValues { s with host := ms }
    exact ⟨_, answer, rfl, rfl, rfl, rfl, rfl, cache, prev, run, pixcnt, status.trans (by decide), rfl, rfl, rfl, rfl, rfl,
      rfl, rfl, rfl⟩

/-- Settles O22: the writer commits the 14 header bytes to the state with the new PHASE, and each u32 of them is four bytes by
division. -/
theorem headerWriterEmitsFourteenBytes : Obligations.HeaderWriterEmitsFourteenBytes := by
  intro s hp hh ha
  rw [step_of_codec hh, codecStep_eHdr hp, encHeader, commit_of_accepts _ _ ha]
  simp only [encodeHeader, bytesOfU32_eq]
  rfl

/-- Settles O33: the eight bytes are committed to the state that normal completion leaves, whose STATUS is read field by field. -/
theorem endMarkerWriterFinishesValid : Obligations.EndMarkerWriterFinishesValid := by
  intro s hp hh ha
  have bit := finishValid_status_getLsbD s
  have fromStart (h : s.status = 1#32) : (finishValid s).status = 0x06#32 := by
    rw [finishValid_status, h]
    decide
  have h : step s = commit endMarker (finishValid s) := (step_of_codec hh).trans (codecStep_ePad hp)
  exact ⟨_, h.trans (commit_of_accepts _ _ ha), ⟨rfl, rfl⟩, rfl, bit validBit, bit busyBit, bit doneBit,
    bit errMagicBit, bit errPadBit, fromStart, ⟨rfl, rfl, rfl, rfl, rfl⟩, rfl, ⟨rfl, rfl, rfl, rfl⟩, rfl, rfl, rfl, rfl⟩

end Sys2Proof.Machine

/-! SUPPORT. The encoder's pixel step as the statements speak of it (41_encoder.md R97, R98): the pixel read from the raw bytes,
the frame of every branch, and the two branches by whether the pixel repeats PREV. -/

namespace Sys2Proof.Machine

/-- A pixel's raw bytes are as many as CHANNELS says and read back as the pixel (41_encoder.md R97). -/
theorem rawPixel_reads_back {c : Byte} {px : Pixel} (h : c = 3#8 ∧ px.a = 255#8 ∨ c = 4#8) :
    (rawPixel c px).length = c.toNat ∧ pixelOfRaw (rawPixel c px) = some px := by
  obtain ⟨r, g, b, a⟩ := px
  obtain ⟨rfl, ha⟩ | rfl := h
  · obtain rfl : a = 255#8 := ha
    exact ⟨rfl, rfl⟩
  · exact ⟨rfl, rfl⟩

section
variable {s : State} {px : Pixel} {rest : List Byte} (hr : ReadsPixel s px rest)
include hr

theorem step_of_readsPixel : step s = encodePixel px { s with inp := rest } := by
  obtain ⟨hp, hh, hc, hi⟩ := hr
  obtain ⟨hlen, hraw⟩ := rawPixel_reads_back hc
  have read : memRead s.channels.toNat s.inp = some (rawPixel s.channels px, rest) := by
    rw [hi, ← hlen, memRead_append]
  rw [step_of_codec hh, codecStep_ePix hp, encPixel]
  simp only [read, hraw]

/-- The frame of every branch: a step that commits these bytes with this RUN and CACHE (41_encoder.md R98). -/
theorem encodedPixel_of_commit {bytes : List Byte} {run : BitVec 6} {cache : Cache}
    (h : step s = commit bytes (advancePixel px .ePad { s with inp := rest, run := run, cache := cache }))
    (ha : s.accepts bytes.length = true) :
    ∃ t, step s = .next t ∧ t.run = run ∧ t.cache = cache ∧ EncodedPixel px rest bytes s t := by
  obtain ⟨hp, -⟩ := hr
  exact ⟨_, h.trans (commit_of_accepts _ _ ha), rfl, rfl, ⟨rfl, rfl⟩, rfl, rfl, congrArg (ite _ Phase.ePad) hp, rfl, rfl,
    ⟨rfl, rfl, rfl, rfl, rfl⟩, rfl, rfl, rfl, rfl⟩

end

/-- What is flushed before a different pixel is the pending run's byte (41_encoder.md R101). -/
theorem flush_eq_pendingRun (s : State) :
    (if s.run.toNat > 0 then encode (.run s.run.toNat) else []) = pendingRun s := by
  have bound := s.run.isLt
  by_cases h : s.run = 0#6
  · rw [pendingRun, if_pos h, h]
    rfl
  · have pos : 0 < s.run.toNat := Nat.pos_of_ne_zero (fun e => h (BitVec.eq_of_toNat_eq e))
    rw [pendingRun, if_neg h, if_pos pos, encode_run_eq pos (by omega)]

theorem length_pendingRun_le_one (s : State) : (pendingRun s).length ≤ 1 := by
  rw [pendingRun]
  split <;> simp

/-- The step for a different pixel writes the pending run and the operation of tag_mux (41_encoder.md R101, R103). -/
theorem step_of_different_pixel {s : State} {px : Pixel} {rest : List Byte} (hr : ReadsPixel s px rest)
    (hne : px ≠ s.prev)
    (ha : s.accepts ((pendingRun s).length + (encode (tagMux s.cfg.deltaMode px s.prev s.cache)).length) = true) :
    ∃ t, step s = .next t ∧ t.run = 0 ∧ t.cache = tagMuxCache px s.cache ∧
      EncodedPixel px rest (pendingRun s ++ encode (tagMux s.cfg.deltaMode px s.prev s.cache)) s t := by
  refine encodedPixel_of_commit hr ?_ (by rwa [List.length_append])
  rw [← flush_eq_pendingRun]
  exact (step_of_readsPixel hr).trans (encodePixel_different hne)

/-- A pixel step that answers next consumed CHANNELS many bytes, which make the pixel that is PREV afterwards, whichever branch
ran (41_encoder.md R97, R111). -/
theorem step_ePix_next {s t : State} (hp : s.phase = .ePix) (hh : s.host = []) (h : step s = .next t) :
    ∃ raw, s.inp = raw ++ t.inp ∧ raw.length = s.channels.toNat ∧ pixelOfRaw raw = some t.prev := by
  rw [step_of_codec hh, codecStep_ePix hp] at h
  obtain ⟨px, raw, rest, hi, hlen, hraw, henc⟩ := encPixel_next h
  obtain ⟨bytes, run, cache, -, rfl, -⟩ := encodePixel_next henc
  exact ⟨raw, hi, hlen, hraw⟩

/-- Settles O23: CHANNELS says which of the two forms of a pixel's raw bytes was consumed. -/
theorem encoderPixelBecomesPrev : Obligations.EncoderPixelBecomesPrev := by
  intro s t hp hh h
  obtain ⟨raw, hi, hlen, hraw⟩ := step_ePix_next hp hh h
  obtain ⟨rfl, ha⟩ | rfl := pixelOfRaw_some hraw
  · have notFour : s.channels ≠ 4#8 := fun hc => by simp [hc] at hlen
    exact ⟨fun _ => ⟨_, _, _, _, hi, rfl, congrArg (Pixel.mk _ _ _) ha⟩, fun hc => absurd hc notFour⟩
  · have notThree : s.channels ≠ 3#8 := fun hc => by simp [hc] at hlen
    exact ⟨fun hc => absurd hc notThree, fun _ => ⟨_, _, _, _, _, hi, rfl, rfl⟩⟩

theorem toNat_run_succ {s : State} (h : s.run.toNat ≤ 61) : (s.run + 1).toNat = s.run.toNat + 1 := by
  rw [BitVec.toNat_add]
  exact Nat.mod_eq_of_lt (show s.run.toNat + 1 < 64 by omega)

/-- A repeat is flushed when it is the 62nd, or on the last pixel (41_encoder.md R100). -/
theorem repeat_is_flushed_iff {s : State} (h : s.run.toNat ≤ 61) :
    (s.run + 1).toNat = runMax ∨ s.lastPixel = true ↔ s.run.toNat = 61 ∨ s.pixcnt.toNat + 1 = s.npix := by
  rw [toNat_run_succ h, State.lastPixel, decide_eq_true_eq]
  exact or_congr_left Nat.succ_inj

/-- Settles O24: below 61 the count does not reach 62, so the branch of a repeated pixel commits no byte. -/
theorem repeatedPixelIsOnlyCounted : Obligations.RepeatedPixelIsOnlyCounted := by
  intro s px rest hr he hrun hlast
  have inRun : s.run.toNat ≤ 61 := hrun.le
  have goesOn := mt (repeat_is_flushed_iff inRun).mp (not_or_intro hrun.ne hlast)
  have h := (step_of_readsPixel hr).trans (encodePixel_extend he goesOn)
  obtain ⟨t, ht, htr, htc, hframe⟩ := encodedPixel_of_commit hr h (accepts_zero s)
  exact ⟨t, ht, htr ▸ toNat_run_succ inRun, htc, hframe⟩

/-- Settles O25: the flush byte is the RUN operation of the incremented count. -/
theorem fullOrLastRunIsFlushed : Obligations.FullOrLastRunIsFlushed := by
  intro s px rest hr he hrun hend ha
  have h := (step_of_readsPixel hr).trans (encodePixel_flush he ((repeat_is_flushed_iff hrun).mpr hend))
  rw [toNat_run_succ hrun, encode_run_eq (by omega) (by omega), Nat.add_sub_cancel] at h
  obtain ⟨t, ht, htr, htc, hframe⟩ := encodedPixel_of_commit hr h ha
  refine ⟨t, _, ht, ?_, htr, htc, hframe⟩
  rw [BitVec.toNat_ofNat]
  omega

/-- Settles O26: both steps write the same operation, since tag_mux does not read RUN; the flush byte is all that is added. -/
theorem pendingRunIsFlushedFirst : Obligations.PendingRunIsFlushedFirst := by
  intro s px rest hr hne hpos hrun ha
  have hop := length_encode_le_five (tagMux s.cfg.deltaMode px s.prev s.cache)
  have pending : pendingRun s = [BitVec.ofNat 8 (0xc0 + (s.run.toNat - 1))] :=
    if_neg (fun e => by rw [e] at hpos; exact absurd hpos (by decide))
  obtain ⟨t, ht, htr, htc, htf⟩ := step_of_different_pixel hr hne
    (accepts_mono s _ 6 (Nat.add_le_add (length_pendingRun_le_one s) hop) ha)
  obtain ⟨u, hu, -, huc, huf⟩ := step_of_different_pixel (s := { s with run := 0 }) hr hne
    (accepts_mono s _ 6 (Nat.add_le_add (length_pendingRun_le_one _) hop) ha)
  rw [pending] at htf
  refine ⟨t, u, _, _, ht, hu, ?_, huf, htf, htr, htc.trans huc.symm⟩
  rw [BitVec.toNat_ofNat]
  omega

end Sys2Proof.Machine

/-! SUPPORT. The operation tag_mux selects, case by case (41_encoder.md R103 to R110), and the statement of each case. -/

namespace Sys2Proof.Machine

section
variable {m : DeltaMode} {px prev : Pixel} {cache : Cache}

theorem tagMux_of_hit (h : cacheRead cache (pixelHash px) = px) : tagMux m px prev cache = .index (pixelHash px) := by
  rw [tagMux, if_pos ((cacheHit_iff _ _).mpr h)]

theorem tagMuxCache_of_hit (h : cacheRead cache (pixelHash px) = px) : tagMuxCache px cache = cache := by
  rw [tagMuxCache, if_pos ((cacheHit_iff _ _).mpr h)]

variable (h : cacheRead cache (pixelHash px) ≠ px)
include h

theorem tagMux_of_changed_alpha (ha : px.a ≠ prev.a) : tagMux m px prev cache = .rgba px.r px.g px.b px.a := by
  rw [tagMux, if_neg (mt (cacheHit_iff _ _).mp h), if_pos ha]

theorem tagMux_of_deltas {dr dg db : Int} (ha : px.a = prev.a) (hd : deltasOf m px prev = (dr, dg, db)) :
    tagMux m px prev cache = deltaOperation dr dg db px := by
  obtain ⟨rfl, rfl, rfl⟩ : channelDelta m px.r prev.r = dr ∧ channelDelta m px.g prev.g = dg ∧
      channelDelta m px.b prev.b = db := by simpa [deltasOf] using hd
  rw [tagMux, if_neg (mt (cacheHit_iff _ _).mp h), if_neg (not_not_intro ha)]

theorem cacheRead_tagMuxCache_of_miss (i : Slot) :
    cacheRead (tagMuxCache px cache) i = if i = pixelHash px then px else cacheRead cache i := by
  rw [tagMuxCache, if_neg (mt (cacheHit_iff _ _).mp h), cacheRead_cacheWrite]

end

theorem inRange_iff {lo hi d : Int} : inRange lo hi d = true ↔ lo ≤ d ∧ d ≤ hi := by
  simp [inRange]

theorem fitsDiff_iff {dr dg db : Int} :
    fitsDiff dr dg db = true ↔ (-2 ≤ dr ∧ dr ≤ 1) ∧ (-2 ≤ dg ∧ dg ≤ 1) ∧ (-2 ≤ db ∧ db ≤ 1) := by
  simp only [fitsDiff, Bool.and_eq_true, inRange_iff, and_assoc]

theorem fitsLuma_iff {dr dg db : Int} :
    fitsLuma dr dg db = true ↔ (-32 ≤ dg ∧ dg ≤ 31) ∧ (-8 ≤ dr - dg ∧ dr - dg ≤ 7) ∧ (-8 ≤ db - dg ∧ db - dg ≤ 7) := by
  simp only [fitsLuma, Bool.and_eq_true, inRange_iff, and_assoc]

/-- On a miss the operation i follows the pending run, and CACHE holds the pixel at its hash (41_encoder.md R101, R105). -/
theorem step_of_miss {s : State} {px : Pixel} {rest : List Byte} {i : Instr} {n : Nat} (hr : ReadsPixel s px rest)
    (hne : px ≠ s.prev) (hmiss : cacheRead s.cache (pixelHash px) ≠ px)
    (hi : tagMux s.cfg.deltaMode px s.prev s.cache = i) (hn : i.tag.length = n)
    (ha : s.accepts ((pendingRun s).length + n) = true) :
    ∃ t, step s = .next t ∧ t.run = 0 ∧ CacheHolds px s t ∧ EncodedPixel px rest (pendingRun s ++ encode i) s t := by
  subst hi hn
  obtain ⟨t, ht, htr, htc, htf⟩ := step_of_different_pixel hr hne (by rwa [length_encode])
  exact ⟨t, ht, htr, fun j => htc ▸ cacheRead_tagMuxCache_of_miss hmiss j, htf⟩

/-- Settles O27: a hit selects INDEX before anything else and keeps the cache. -/
theorem cacheHitIsWrittenAsIndex : Obligations.CacheHitIsWrittenAsIndex := by
  intro s px rest hr hne hrun ha hhit
  have op : tagMux s.cfg.deltaMode px s.prev s.cache = .index (pixelHash px) := tagMux_of_hit hhit
  obtain ⟨b, hb, hnum⟩ := encode_index_eq (pixelHash px)
  obtain ⟨t, ht, htr, htc, htf⟩ := step_of_different_pixel hr hne (by rwa [op, hb])
  rw [op, hb] at htf
  exact ⟨t, b, ht, hnum, htr, htc.trans (tagMuxCache_of_hit hhit), htf⟩

/-- Settles O28: on a miss a changed alpha selects RGBA before any delta is looked at. -/
theorem changedAlphaIsWrittenAsRgba : Obligations.ChangedAlphaIsWrittenAsRgba := by
  intro s px rest hr hne hrun ha hmiss halpha
  exact step_of_miss hr hne hmiss (tagMux_of_changed_alpha hmiss halpha) rfl ha

/-- Settles O29: deltas that fit DIFF select it, and in that range its byte is the sum of the biased deltas by weight. -/
theorem smallDeltasAreWrittenAsDiff : Obligations.SmallDeltasAreWrittenAsDiff := by
  intro s px rest dr dg db hr hne hrun ha hmiss halpha hd hdr hdg hdb
  have op : deltaOperation dr dg db px = .diff dr dg db := by
    rw [deltaOperation, if_pos (fitsDiff_iff.mpr ⟨hdr, hdg, hdb⟩)]
  obtain ⟨b, hb, hnum⟩ := encode_diff_eq hdr hdg hdb
  obtain ⟨t, ht, htr, htc, htf⟩ := step_of_miss hr hne hmiss ((tagMux_of_deltas hmiss halpha hd).trans op) rfl ha
  exact ⟨t, b, ht, hnum, htr, htc, hb ▸ htf⟩

/-- Settles O30: deltas that fit LUMA and not DIFF select it, and in that range its bytes are the biased deltas. -/
theorem greenBiasedDeltasAreWrittenAsLuma : Obligations.GreenBiasedDeltasAreWrittenAsLuma := by
  intro s px rest dr dg db hr hne hrun ha hmiss halpha hd hdiff hdg hdrdg hdbdg
  have op : deltaOperation dr dg db px = .luma dg (dr - dg) (db - dg) := by
    rw [deltaOperation, if_neg (mt fitsDiff_iff.mp hdiff), if_pos (fitsLuma_iff.mpr ⟨hdg, hdrdg, hdbdg⟩)]
  obtain ⟨b0, b1, hb, hnum0, hnum1⟩ := encode_luma_eq hdg hdrdg hdbdg
  obtain ⟨t, ht, htr, htc, htf⟩ := step_of_miss hr hne hmiss ((tagMux_of_deltas hmiss halpha hd).trans op) rfl ha
  exact ⟨t, b0, b1, ht, hnum0, hnum1, htr, htc, hb ▸ htf⟩

/-- Settles O31: deltas that fit neither leave the literal. -/
theorem otherPixelsAreWrittenAsRgb : Obligations.OtherPixelsAreWrittenAsRgb := by
  intro s px rest dr dg db hr hne hrun ha hmiss halpha hd hdiff hluma
  have op : deltaOperation dr dg db px = .rgb px.r px.g px.b := by
    rw [deltaOperation, if_neg (mt fitsDiff_iff.mp hdiff), if_neg (mt fitsLuma_iff.mp hluma)]
  exact step_of_miss hr hne hmiss ((tagMux_of_deltas hmiss halpha hd).trans op) rfl ha

end Sys2Proof.Machine

/-! SUPPORT. A decoder pixel step as the statements speak of it (42_decoder.md R119, R127 to R129): the bytes of the emitted
pixel, the frame that every one of them shares, and the operand fields read as numbers. -/

namespace Sys2Proof

/-- A signed operand as a number: the field's bits by division, less the bias (30_encoding.md R78). -/
theorem unbias_extractLsb' (bias start len : Nat) (b : Byte) :
    unbias bias (b.extractLsb' start len) = ((b.toNat / 2 ^ start % 2 ^ len : Nat) : Int) - (bias : Int) := by
  rw [unbias, BitVec.extractLsb'_toNat, Nat.shiftRight_eq_div_pow]

theorem diffOf_eq (b0 : Byte) :
    diffOf b0 = .diff ((b0.toNat / 16 % 4 : Nat) - 2) ((b0.toNat / 4 % 4 : Nat) - 2) ((b0.toNat % 4 : Nat) - 2) := by
  simp only [diffOf, unbias_extractLsb', Nat.pow_zero, Nat.div_one]
  rfl

theorem lumaOf_eq (b0 b1 : Byte) :
    lumaOf b0 b1 = .luma ((b0.toNat % 64 : Nat) - 32) ((b1.toNat / 16 : Nat) - 8) ((b1.toNat % 16 : Nat) - 8) := by
  have highNibble : b1.toNat / 2 ^ 4 % 2 ^ 4 = b1.toNat / 16 := Nat.mod_eq_of_lt (by omega)
  simp only [lumaOf, unbias_extractLsb', highNibble, Nat.pow_zero, Nat.div_one]
  rfl

/-- An INDEX tag is its own slot number, since its top two bits are 0 (30_encoding.md R70). -/
theorem slot_of_index_tag {b0 : Byte} (h : b0.toNat ≤ 0x3f) : (b0.extractLsb' 0 6).toNat = b0.toNat := by
  rw [toNat_lowSixBits]
  omega

theorem decode_rgb_cutShort {tail : List Byte} (h : tail.length < 3) : decode (0xfe#8 :: tail) = .cutShort .rgb := by
  rw [decode_cons_of_tagClass (c := .rgb) rfl]
  rcases tail with _ | ⟨r, _ | ⟨g, _ | ⟨b, tail⟩⟩⟩
  case cons.cons.cons => simp only [List.length_cons] at h; omega
  all_goals rfl

/-- A u32 read most significant byte first (20_memory.md R48). -/
theorem toNat_u32OfBytes (b0 b1 b2 b3 : Byte) :
    (u32OfBytes b0 b1 b2 b3).toNat = b0.toNat * 2 ^ 24 + b1.toNat * 2 ^ 16 + b2.toNat * 2 ^ 8 + b3.toNat := by
  have digits : (u32OfBytes b0 b1 b2 b3).toNat = ((b0.toNat * 2 ^ 8 + b1.toNat) * 2 ^ 8 + b2.toNat) * 2 ^ 8 + b3.toNat := by
    rw [u32OfBytes, toNat_append_eq_add, toNat_append_eq_add, toNat_append_eq_add]
  rw [digits]
  ring

end Sys2Proof

namespace Sys2Proof.Machine

/-- With a legal OUT_CH the first OUT_CH channels are the pixel's raw bytes (42_decoder.md R128). -/
theorem pixelBytes_eq_rawPixel {oc : Byte} (h : oc = 3#8 ∨ oc = 4#8) (px : Pixel) : pixelBytes oc px = rawPixel oc px := by
  obtain rfl | rfl := h <;> rfl

theorem cacheHolds_iff {px : Pixel} {s t : State} :
    CacheHolds px s t ↔ t.cache = cacheWrite s.cache (pixelHash px) px := by
  constructor
  · intro h
    apply cache_ext
    intro i
    rw [h i, cacheRead_cacheWrite]
  · intro h i
    rw [h, cacheRead_cacheWrite]

/-- The frame of every decoder pixel step: emitting px with this RUN and CACHE (42_decoder.md R119, R128, R129). -/
theorem emitPixel_decodes {s : State} (he : CanEmit s) (px : Pixel) (run : BitVec 6) (cache : Cache) :
    ∃ t, emitPixel px { s with run := run, cache := cache } = .next t ∧ t.prev = px ∧ t.run = run ∧ t.cache = cache ∧
      DecodedPixel s t := by
  obtain ⟨hoc, ha⟩ := he
  have room : s.accepts (pixelBytes s.outCh px).length = true := accepts_mono s _ _ (length_pixelBytes_le _ _) ha
  have wrote := congrArg (s.out ++ ·) (pixelBytes_eq_rawPixel hoc px)
  have recorded := congrArg (s.written ++ ·) (pixelBytes_eq_rawPixel hoc px)
  exact ⟨_, emitPixel_of_accepts px _ room, rfl, rfl, rfl, ⟨wrote, recorded⟩, rfl, rfl, rfl, rfl,
    ⟨rfl, rfl, rfl, rfl, rfl⟩, rfl, rfl, rfl, rfl⟩

/-- Every operation but RUN ends like this, whatever its pixel (42_decoder.md R127). -/
theorem completeOperation_decodes {s : State} (he : CanEmit s) (px : Pixel) :
    ∃ t, completeOperation px s = .next t ∧ t.prev = px ∧ CacheHolds t.prev s t ∧ t.run = s.run ∧ DecodedPixel s t := by
  obtain ⟨t, ht, rfl, hrun, hcache, hframe⟩ := emitPixel_decodes he px s.run (cacheWrite s.cache (pixelHash px) px)
  exact ⟨t, ht, rfl, cacheHolds_iff.mpr hcache, hrun, hframe⟩

/-- Adding a delta is addition mod 256 (00_scope.md R19). -/
theorem toNat_addDelta (c : Byte) (d : Int) : ((addDelta c d).toNat : Int) = (c.toNat + d) % 256 :=
  toNat_wrap8 _

/-- Without an operation at the front of IN the pixel step waits for input (20_memory.md R54). -/
theorem decPixel_of_no_op {s : State} (hr : s.run = 0) (hd : ∀ i rest, decode s.inp ≠ .op i rest) :
    decPixel s = .fault .waitInput := by
  rw [decPixel, if_neg (by rw [hr]; decide)]
  split
  · exact absurd ‹_› (hd _ _)
  · rfl
  · rfl

end Sys2Proof.Machine

/-! SUPPORT. The six operations and the run repeat (42_decoder.md R120 to R126): each is the shared ending with its own pixel. -/

namespace Sys2Proof.Machine

/-- Settles O8: the tag 0xfe asks for three bytes, and the operation completes with their pixel and PREV's alpha. -/
theorem rgbLoadsThreeChannelsAndInheritsAlpha : Obligations.RgbLoadsThreeChannelsAndInheritsAlpha := by
  refine ⟨fun r g b rest => decode_rgb_tag rfl r g b rest, ?waits, fun r g b s he => completeOperation_decodes he _⟩
  intro s tail hp hh hr hi hlen t
  have noOp (i : Instr) (rest : List Byte) : decode s.inp ≠ .op i rest := by
    rw [hi, decode_rgb_cutShort hlen]
    nofun
  rw [step_of_codec hh, codecStep_dPix hp, decPixel_of_no_op hr noOp]
  nofun

/-- Settles O9: the tag 0xff asks for four bytes, and the operation completes with their pixel. -/
theorem rgbaLoadsFourChannels : Obligations.RgbaLoadsFourChannels :=
  ⟨fun r g b a rest => decode_rgba_tag rfl r g b a rest, fun _ _ _ _ _ he => completeOperation_decodes he _⟩

/-- Settles O10: the operation completes with the slot's pixel. Written back to its own slot it changes nothing, and
(0,0,0,0) hashes to slot 0. -/
theorem indexLoadsTheSlotVerbatim : Obligations.IndexLoadsTheSlotVerbatim := by
  refine ⟨fun b0 rest h => ⟨_, slot_of_index_tag h, decode_index_tag h rest⟩, fun i s he => ?_⟩
  obtain ⟨t, ht, hprev, hcache, hrun, hframe⟩ := completeOperation_decodes he (cacheRead s.cache i)
  have written := cacheHolds_iff.mp hcache
  rw [hprev] at written
  refine ⟨t, ht, hprev, hcache, hrun, hframe, fun hash => ?ownSlot, fun zero => ?zeroPixel⟩
  case ownSlot => rw [written, hash, cacheWrite_same]
  case zeroPixel =>
    rw [written, zero]
    rfl

/-- Settles O11: the operation completes with PREV's channels plus the deltas. -/
theorem diffAddsItsDeltasMod256 : Obligations.DiffAddsItsDeltasMod256 := by
  refine ⟨fun b0 rest lo hi => by rw [decode_diff_tag lo hi, diffOf_eq], fun dr dg db s he => ?_⟩
  obtain ⟨t, ht, hprev, hcache, hrun, hframe⟩ := completeOperation_decodes he (addDeltas s.prev dr dg db)
  refine ⟨t, ht, ?_, ?_, ?_, ?_, hcache, hrun, hframe⟩ <;> rw [hprev]
  · exact toNat_addDelta _ _
  · exact toNat_addDelta _ _
  · exact toNat_addDelta _ _
  · rfl

/-- Settles O12: the operation completes with green plus dg, and red and blue plus dg and their sub-deltas. -/
theorem lumaAddsItsDeltasMod256 : Obligations.LumaAddsItsDeltasMod256 := by
  refine ⟨fun b0 b1 rest lo hi => by rw [decode_luma_tag lo hi, lumaOf_eq], fun dg drdg dbdg s he => ?_⟩
  obtain ⟨t, ht, hprev, hcache, hrun, hframe⟩ :=
    completeOperation_decodes he (addDeltas s.prev (dg + drdg) dg (dg + dbdg))
  have subDelta (c : Byte) (d : Int) : ((addDelta c (dg + d)).toNat : Int) = (c.toNat + dg + d) % 256 := by
    rw [toNat_addDelta, Int.add_assoc]
  refine ⟨t, ht, ?_, ?_, ?_, ?_, hcache, hrun, hframe⟩ <;> rw [hprev]
  · exact toNat_addDelta _ _
  · exact subDelta _ _
  · exact subDelta _ _
  · rfl

/-- Settles O13: the step emits PREV with RUN set to the field, which fits 6 bits. -/
theorem runSetsTheCounterAndEmitsPrev : Obligations.RunSetsTheCounterAndEmitsPrev := by
  refine ⟨fun b0 rest lo hi => by rw [decode_run_tag lo hi, runOf_eq lo], fun n s hn he => ?_⟩
  have field : (BitVec.ofNat 6 (n + 1 - 1)).toNat = n := by
    rw [BitVec.toNat_ofNat]
    omega
  obtain ⟨t, ht, hprev, hrun, hcache, hframe⟩ := emitPixel_decodes he s.prev (BitVec.ofNat 6 (n + 1 - 1)) s.cache
  exact ⟨t, ht, hrun ▸ field, hprev, hcache, hframe⟩

/-- Settles O16: with RUN above 0 the step is the run repeat, which emits PREV from a state that differs in RUN alone. -/
theorem runRepeatReadsNothing : Obligations.RunRepeatReadsNothing := by
  intro s hp hh hpos he
  have isRepeat : step s = runRepeat s := by rw [step_of_codec hh, codecStep_dPix hp, decPixel, if_pos hpos]
  have counted : (s.run - 1).toNat = s.run.toNat - 1 := BitVec.toNat_sub_of_le (BitVec.le_def.mpr hpos)
  obtain ⟨t, ht, hprev, hrun, hcache, hframe⟩ := emitPixel_decodes he s.prev (s.run - 1) s.cache
  exact ⟨t, isRepeat.trans ht, hrun ▸ counted, hprev, hcache, hframe⟩

end Sys2Proof.Machine

/-! SUPPORT. The decoder's frame (42_decoder.md R116 to R118, R131): acceptance of DECODE, the magic check, the header read and
the end-marker check. -/

namespace Sys2Proof.Machine

/-- STATUS after an error, field by field (60_exceptions.md R134 to R136). -/
theorem getLsbD_statusAfterError {errBit : Nat} (hb : errBit < 32) (w : BitVec 32) (i : Nat) :
    (statusEnd (setField errBit true (setField validBit false w))).getLsbD i =
      if i = doneBit then true else if i = busyBit then false else if i = errBit then true
      else if i = validBit then false else w.getLsbD i := by
  rw [getLsbD_statusEnd, getLsbD_setField hb, getLsbD_setField (by decide)]

/-- The magic check by the four bytes at the front of IN (42_decoder.md R117). -/
theorem decMagic_eq {s : State} {m rest : List Byte} (hi : s.inp = m ++ rest) (hlen : m.length = 4) :
    decMagic s = if m = magicBytes then .next { s with inp := rest, phase := .dHdr }
      else .next (raiseError .magicMismatch { s with inp := rest }) := by
  have read : memRead 4 s.inp = some (m, rest) := by rw [hi, ← hlen, memRead_append]
  simp only [decMagic, read]

/-- The end-marker check by the eight bytes at the front of IN: they decide STATUS and nothing else (42_decoder.md R131). -/
theorem decPad_eq {s : State} {m rest : List Byte} (hi : s.inp = m ++ rest) (hlen : m.length = 8) :
    decPad s = .next { s with
      inp := rest, phase := .done,
      status := if m = endMarker then (finishValid s).status else (raiseError .padMismatch s).status } := by
  have read : memRead 8 s.inp = some (m, rest) := by rw [hi, ← hlen, memRead_append]
  simp only [decPad, read]
  split <;> rfl

/-- A decoder pixel step reads no CHANNELS: its ending commutes with a change of it (42_decoder.md R118). -/
theorem emitPixel_ignores_channels {px : Pixel} {s t : State} (c : Byte) (h : emitPixel px s = .next t) :
    emitPixel px { s with channels := c } = .next { t with channels := c } := by
  obtain ⟨ha, rfl⟩ := emitPixel_next h
  exact emitPixel_of_accepts px { s with channels := c } ha

theorem exec_ignores_channels {i : Instr} {s t : State} (c : Byte) (h : exec i s = .next t) :
    exec i { s with channels := c } = .next { t with channels := c } := by
  cases i <;> exact emitPixel_ignores_channels c h

theorem decPixel_ignores_channels {s t : State} (c : Byte) (h : decPixel s = .next t) :
    decPixel { s with channels := c } = .next { t with channels := c } := by
  obtain ⟨hr, h⟩ | ⟨hr, i, rest, hd, h⟩ := decPixel_next h
  · have isRepeat : decPixel { s with channels := c } = runRepeat { s with channels := c } := if_pos hr
    exact isRepeat.trans (emitPixel_ignores_channels c h)
  · exact (decPixel_of_op (s := { s with channels := c }) hr hd).trans (exec_ignores_channels c h)

/-- Settles O19: the step is the magic check on the four bytes, and raising the error writes STATUS and PHASE alone. -/
theorem magicCheckReadsFourBytesAndDecides : Obligations.MagicCheckReadsFourBytesAndDecides := by
  intro s m rest hp hh hi hlen
  have answer := ((step_of_codec hh).trans (codecStep_dMagic hp)).trans (decMagic_eq hi hlen)
  refine ⟨fun good => answer.trans (if_pos good), fun bad => ?_⟩
  have bit := getLsbD_statusAfterError (errBit := errMagicBit) (by decide) s.status
  have fromStart (h : s.status = 1#32) : (raiseError .magicMismatch { s with inp := rest }).status = 0x0a#32 := by
    rw [raiseError_magicMismatch_status, h]
    decide
  exact ⟨_, answer.trans (if_neg bad), rfl, bit validBit, bit errMagicBit, bit doneBit, bit busyBit, bit errPadBit,
    fromStart, rfl⟩

/-- Settles O20: the step loads the ten bytes, each register's four by place value; no decoder pixel step reads CHANNELS. -/
theorem headerReadLoadsTheRegisters : Obligations.HeaderReadLoadsTheRegisters := by
  constructor
  · intro s w0 w1 w2 w3 h0 h1 h2 h3 c cs rest hp hh hi
    have loaded : decHeader s =
        .next (loadHeader (u32OfBytes w0 w1 w2 w3) (u32OfBytes h0 h1 h2 h3) c cs { s with inp := rest }) := by
      simp only [decHeader, hi]
    exact ⟨_, ((step_of_codec hh).trans (codecStep_dHdr hp)).trans loaded, toNat_u32OfBytes _ _ _ _,
      toNat_u32OfBytes _ _ _ _, rfl, rfl, rfl, rfl, rfl, rfl, rfl, rfl, rfl, rfl, rfl, rfl, rfl, rfl, rfl, rfl⟩
  · intro s t c hp hh h
    rw [step_of_codec hh, codecStep_dPix hp] at h
    have isPixelStep : step { s with channels := c } = decPixel { s with channels := c } :=
      (step_of_codec (s := { s with channels := c }) hh).trans (codecStep_dPix hp)
    exact isPixelStep.trans (decPixel_ignores_channels c h)

/-- Settles O21: the step writes IN, PHASE and STATUS alone. BUSY, DONE and ERR_MAGIC come out alike in both outcomes of the
compare, VALID and ERR_PAD by the outcome. -/
theorem endMarkerDecidesValidity : Obligations.EndMarkerDecidesValidity := by
  intro s m rest hp hh hi hlen
  have answer := ((step_of_codec hh).trans (codecStep_dPad hp)).trans (decPad_eq hi hlen)
  have good := finishValid_status_getLsbD s
  have bad := getLsbD_statusAfterError (errBit := errPadBit) (by decide) s.status
  set w := if m = endMarker then (finishValid s).status else (raiseError .padMismatch s).status with hw
  have either : w.getLsbD doneBit = true ∧ w.getLsbD busyBit = false ∧ w.getLsbD errMagicBit = s.errMagic := by
    rw [hw]
    split
    · exact ⟨good doneBit, good busyBit, good errMagicBit⟩
    · exact ⟨bad doneBit, bad busyBit, bad errMagicBit⟩
  obtain ⟨done, busy, errMagic⟩ := either
  refine ⟨_, answer, rfl, done, busy, errMagic, rfl, rfl, rfl, ⟨rfl, rfl, rfl, rfl, rfl⟩, ⟨rfl, rfl, rfl, rfl⟩, rfl, rfl,
    rfl, rfl, fun marker => ?valid, fun other => ?invalid⟩
  case valid =>
    have finished : w = (finishValid s).status := if_pos marker
    rw [finished]
    refine ⟨good validBit, good errPadBit, fun start => ?_⟩
    rw [finishValid_status, start]
    decide
  case invalid =>
    have raised : w = (raiseError .padMismatch s).status := if_neg other
    rw [raised]
    refine ⟨bad validBit, bad errPadBit, fun start => ?_⟩
    rw [raiseError_padMismatch_status, start]
    decide

/-- Settles O36: at rest acceptance is decided by the argument alone, and an accepted command stands at the start values. -/
theorem decodeAcceptanceStartsTheCommand : Obligations.DecodeAcceptanceStartsTheCommand := by
  intro s oc ms hrest hhost
  have answer := (step_of_move hhost).trans
    (acceptDecode_at_rest (s := { s with host := ms }) ((atRest_iff _).mpr hrest))
  constructor
  · intro illegal
    exact answer.trans (if_neg illegal)
  · intro legal
    obtain ⟨cache, prev, run, pixcnt, status⟩ := startCommand_atStartValues { s with host := ms }
    exact ⟨_, answer.trans (if_pos legal), rfl, rfl, rfl, rfl, rfl, cache, prev, run, pixcnt, status.trans (by decide), rfl,
      rfl, rfl, rfl, rfl, rfl, rfl, rfl⟩

end Sys2Proof.Machine

/-! SUPPORT. The encoder has no failure path (60_exceptions.md R137): what its three steps do to STATUS and PHASE. -/

namespace Sys2Proof.Machine

/-- The header writer leaves STATUS and goes on to the pixels or the end marker (41_encoder.md R96). -/
theorem encHeader_next_status {s t : State} (h : encHeader s = .next t) : t.status = s.status ∧ t.phase ≠ .done := by
  obtain ⟨-, rfl⟩ := encHeader_next h
  refine ⟨rfl, ?_⟩
  dsimp only
  split <;> decide

/-- The pixel step leaves STATUS in every branch, and goes on to a pixel or the end marker (41_encoder.md R98). -/
theorem encPixel_next_status {s t : State} (hp : s.phase = .ePix) (h : encPixel s = .next t) :
    t.status = s.status ∧ t.phase ≠ .done := by
  obtain ⟨px, raw, rest, -, -, -, henc⟩ := encPixel_next h
  obtain ⟨bytes, run, cache, -, rfl, -⟩ := encodePixel_next henc
  refine ⟨rfl, ?_⟩
  dsimp only [advancePixel_phase]
  rw [hp]
  split <;> decide

/-- A codec step of an ENCODE goes on with STATUS unchanged, or completes with the STATUS of normal completion: there is no
third way to end (60_exceptions.md R137). -/
theorem codecStep_encoding_next {s t : State} (he : s.phase.encoding = true) (h : codecStep s = .next t) :
    (t.status = s.status ∧ t.phase ≠ .done) ∨ t.status = (finishValid s).status := by
  cases hp : s.phase
  case eHdr => exact .inl (encHeader_next_status ((codecStep_eHdr hp).symm.trans h))
  case ePix => exact .inl (encPixel_next_status hp ((codecStep_ePix hp).symm.trans h))
  case ePad =>
    obtain ⟨-, rfl⟩ := encPad_next ((codecStep_ePad hp).symm.trans h)
    exact .inr rfl
  all_goals
    rw [hp] at he
    exact absurd he (by decide)

/-- Settles O34: a step that goes on keeps the whole STATUS, and completion writes BUSY, DONE and VALID but neither error bit. -/
theorem encoderRaisesNoError : Obligations.EncoderRaisesNoError := by
  intro s t hh he h
  rw [step_of_codec hh] at h
  obtain ⟨same, running⟩ | finished := codecStep_encoding_next he h
  · have bit (i : Nat) : t.status.getLsbD i = s.status.getLsbD i := congrArg (·.getLsbD i) same
    exact ⟨bit errMagicBit, bit errPadBit, fun done => absurd done running⟩
  · have bit (i : Nat) := (congrArg (·.getLsbD i) finished).trans (finishValid_status_getLsbD s i)
    exact ⟨bit errMagicBit, bit errPadBit, fun _ => bit validBit⟩

end Sys2Proof.Machine

/-! SUPPORT. The hardware reset event (70_reset_and_hazards.md R151): a move of the host that is accepted in every state. -/

namespace Sys2Proof.Machine

/-- The reset move is the reset event on what follows it, with no condition on the state (70_reset_and_hazards.md R151). -/
theorem step_of_reset {s : State} {ms : List HostMove} (h : s.host = .reset :: ms) :
    step s = .next (hardwareReset { s with host := ms }) :=
  step_of_move h

/-- Settles O41: the step is the reset event, whose own fields give each part of the claim. -/
theorem hardwareResetGoesIdle : Obligations.HardwareResetGoesIdle := by
  intro s ms hhost
  let u : State := { s with host := ms }
  exact ⟨hardwareReset u, step_of_reset hhost, hardwareReset_phase u, hardwareReset_status u, hardwareReset_inp u,
    hardwareReset_out u, hardwareReset_host u, hardwareReset_cfg u⟩

end Sys2Proof.Machine

/-! SUPPORT. Decoder and encoder are inverse to each other (30_encoding.md R77, R78, R83): a tag byte is its class's two bits and its
operand fields put together again, and a field less its bias lies in the operand's range. -/

namespace Sys2Proof

theorem wellFormed_diff_iff {dr dg db : Int} :
    (Instr.diff dr dg db).WellFormed ↔ (-2 ≤ dr ∧ dr ≤ 1) ∧ (-2 ≤ dg ∧ dg ≤ 1) ∧ (-2 ≤ db ∧ db ≤ 1) :=
  Machine.fitsDiff_iff

theorem wellFormed_luma_iff {dg drdg dbdg : Int} :
    (Instr.luma dg drdg dbdg).WellFormed ↔
      (-32 ≤ dg ∧ dg ≤ 31) ∧ (-8 ≤ drdg ∧ drdg ≤ 7) ∧ (-8 ≤ dbdg ∧ dbdg ≤ 7) := by
  simp only [Instr.WellFormed, Instr.wellFormed, Bool.and_eq_true, Machine.inRange_iff, and_assoc]

theorem wellFormed_run_iff {k : Nat} : (Instr.run k).WellFormed ↔ 1 ≤ k ∧ k ≤ 62 := by
  simp [Instr.WellFormed, Instr.wellFormed]

theorem unbias_bounds {w : Nat} (bias : Nat) (v : BitVec w) :
    -(bias : Int) ≤ unbias bias v ∧ unbias bias v < 2 ^ w - bias := by
  have bound : (v.toNat : Int) < 2 ^ w := by exact_mod_cast v.isLt
  rw [unbias]
  omega

theorem bytes_of_index_tag {b0 : Byte} : tagClass b0 = .index → 0b00#2 ++ b0.extractLsb' 0 6 = b0 := by
  revert b0; decide

theorem bytes_of_diff_tag {b0 : Byte} :
    tagClass b0 = .diff → 0b01#2 ++ b0.extractLsb' 4 2 ++ b0.extractLsb' 2 2 ++ b0.extractLsb' 0 2 = b0 := by
  revert b0; decide

theorem bytes_of_luma_tag {b0 : Byte} : tagClass b0 = .luma → 0b10#2 ++ b0.extractLsb' 0 6 = b0 := by
  revert b0; decide

theorem nibbles_append (b : Byte) : (b.extractLsb' 4 4 ++ b.extractLsb' 0 4 : BitVec 8) = b := by
  revert b; decide

theorem bytes_of_run_tag {b0 : Byte} : tagClass b0 = .run → 0b11#2 ++ b0.extractLsb' 0 6 = b0 := by
  revert b0; decide

/-- The two tags above the longest run's are the literals' (30_encoding.md R73). -/
theorem count_of_run_tag_le {b0 : Byte} : tagClass b0 = .run → (b0.extractLsb' 0 6).toNat ≤ 61 := by
  revert b0; decide

theorem tag_of_rgb {b0 : Byte} : tagClass b0 = .rgb → b0 = 0xfe#8 := by
  revert b0; decide

theorem tag_of_rgba {b0 : Byte} : tagClass b0 = .rgba → b0 = 0xff#8 := by
  revert b0; decide

theorem encode_indexOf {b0 : Byte} (h : tagClass b0 = .index) : encode (indexOf b0) = [b0] := by
  rw [indexOf, encode, bytes_of_index_tag h]

theorem encode_diffOf {b0 : Byte} (h : tagClass b0 = .diff) : encode (diffOf b0) = [b0] := by
  rw [diffOf, encode, biasField_unbias, biasField_unbias, biasField_unbias, bytes_of_diff_tag h]

theorem encode_lumaOf {b0 : Byte} (h : tagClass b0 = .luma) (b1 : Byte) : encode (lumaOf b0 b1) = [b0, b1] := by
  rw [lumaOf, encode, biasField_unbias, biasField_unbias, biasField_unbias, bytes_of_luma_tag h, nibbles_append]

theorem encode_runOf {b0 : Byte} (h : tagClass b0 = .run) : encode (runOf b0) = [b0] := by
  rw [runOf, encode, Nat.add_sub_cancel, BitVec.ofNat_toNat, BitVec.setWidth_eq, bytes_of_run_tag h]

theorem diffOf_wellFormed (b0 : Byte) : (diffOf b0).WellFormed := by
  have red := unbias_bounds 2 (b0.extractLsb' 4 2)
  have green := unbias_bounds 2 (b0.extractLsb' 2 2)
  have blue := unbias_bounds 2 (b0.extractLsb' 0 2)
  rw [diffOf, wellFormed_diff_iff]
  omega

theorem lumaOf_wellFormed (b0 b1 : Byte) : (lumaOf b0 b1).WellFormed := by
  have green := unbias_bounds 32 (b0.extractLsb' 0 6)
  have red := unbias_bounds 8 (b1.extractLsb' 4 4)
  have blue := unbias_bounds 8 (b1.extractLsb' 0 4)
  rw [lumaOf, wellFormed_luma_iff]
  omega

theorem runOf_wellFormed {b0 : Byte} (h : tagClass b0 = .run) : (runOf b0).WellFormed := by
  have := count_of_run_tag_le h
  rw [runOf, wellFormed_run_iff]
  omega

/-- Reading an operand field back undoes the bias of an operand in range (30_encoding.md R78, R83). -/
theorem diffOf_encoded {dr dg db : Int} (h : (Instr.diff dr dg db).WellFormed) :
    diffOf (0b01#2 ++ biasField 2 2 dr ++ biasField 2 2 dg ++ biasField 2 2 db) = .diff dr dg db := by
  obtain ⟨hr, hg, hb⟩ := wellFormed_diff_iff.mp h
  rw [diffOf, red_of_diff_byte, green_of_diff_byte, blue_of_diff_byte, unbias_biasField, unbias_biasField,
    unbias_biasField] <;> omega

theorem lumaOf_encoded {dg drdg dbdg : Int} (h : (Instr.luma dg drdg dbdg).WellFormed) :
    lumaOf (0b10#2 ++ biasField 6 32 dg) (biasField 4 8 drdg ++ biasField 4 8 dbdg) = .luma dg drdg dbdg := by
  obtain ⟨hg, hr, hb⟩ := wellFormed_luma_iff.mp h
  rw [lumaOf, green_of_luma_byte, high_nibble, low_nibble, unbias_biasField, unbias_biasField, unbias_biasField] <;> omega

theorem runOf_encoded {k : Nat} (h : (Instr.run k).WellFormed) :
    tagClass (0b11#2 ++ BitVec.ofNat 6 (k - 1)) = .run ∧ runOf (0b11#2 ++ BitVec.ofNat 6 (k - 1)) = .run k := by
  obtain ⟨lo, hi⟩ := wellFormed_run_iff.mp h
  have field : (BitVec.ofNat 6 (k - 1)).toNat = k - 1 := by
    rw [BitVec.toNat_ofNat]
    omega
  refine ⟨tagClass_run _ (by omega), ?_⟩
  rw [runOf, count_of_run_byte, field, Nat.sub_add_cancel lo]

/-- Settles O1: the tag an operation is written with is read as its own class, and that class reads the operands back. -/
theorem decodeOfEncodeGivesTheOperation : Obligations.DecodeOfEncodeGivesTheOperation := by
  intro i rest h
  cases i with
  | index slot =>
    have operand : indexOf (0b00#2 ++ slot) = .index slot := by rw [indexOf, slot_of_index_byte]
    exact (decode_cons_of_tagClass (tagClass_index slot) rest).trans (congrArg (Decoded.op · rest) operand)
  | diff dr dg db =>
    exact (decode_cons_of_tagClass (tagClass_diff _ _ _) rest).trans (congrArg (Decoded.op · rest) (diffOf_encoded h))
  | luma dg drdg dbdg =>
    exact (decode_cons_of_tagClass (tagClass_luma _) _).trans (congrArg (Decoded.op · rest) (lumaOf_encoded h))
  | run k =>
    obtain ⟨tag, operand⟩ := runOf_encoded h
    exact (decode_cons_of_tagClass tag rest).trans (congrArg (Decoded.op · rest) operand)
  | rgb r g b => exact decode_rgb_tag rfl r g b rest
  | rgba r g b a => exact decode_rgba_tag rfl r g b a rest

/-- What a classified tag reads is well formed, and encodes to the tag and the operand bytes consumed (30_encoding.md R78). -/
theorem decodeTagged_op {b0 : Byte} {tail rest : List Byte} {i : Instr}
    (h : decodeTagged b0 tail (tagClass b0) = .op i rest) : i.WellFormed ∧ encode i ++ rest = b0 :: tail := by
  cases tag : tagClass b0 <;> rw [tag] at h
  case index =>
    cases h
    exact ⟨rfl, by rw [encode_indexOf tag]; rfl⟩
  case diff =>
    cases h
    exact ⟨diffOf_wellFormed b0, by rw [encode_diffOf tag]; rfl⟩
  case run =>
    cases h
    exact ⟨runOf_wellFormed tag, by rw [encode_runOf tag]; rfl⟩
  case luma =>
    rcases tail with _ | ⟨b1, tail⟩ <;> cases h
    exact ⟨lumaOf_wellFormed b0 b1, by rw [encode_lumaOf tag]; rfl⟩
  case rgb =>
    rcases tail with _ | ⟨r, _ | ⟨g, _ | ⟨b, tail⟩⟩⟩ <;> cases h
    exact ⟨rfl, by rw [tag_of_rgb tag]; rfl⟩
  case rgba =>
    rcases tail with _ | ⟨r, _ | ⟨g, _ | ⟨b, _ | ⟨a, tail⟩⟩⟩⟩ <;> cases h
    exact ⟨rfl, by rw [tag_of_rgba tag]; rfl⟩

/-- Settles O2: only a nonempty list is read, and the class of its tag says what. -/
theorem encodeOfDecodeGivesTheBytes : Obligations.EncodeOfDecodeGivesTheBytes := by
  intro bytes rest i h
  cases bytes with
  | nil => cases h
  | cons b0 tail => exact decodeTagged_op h

theorem length_tagClass (b0 : Byte) :
    (tagClass b0).length =
      if b0.toNat = 0xfe then 4 else if b0.toNat = 0xff then 5
      else if 0x80 ≤ b0.toNat ∧ b0.toNat ≤ 0xbf then 2 else 1 := by
  revert b0; decide

/-- A tag with all the operand bytes of its class is read, and they are consumed (30_encoding.md R77). -/
theorem decodeTagged_complete (b0 : Byte) {tail : List Byte} {c : TagClass} (h : c.length ≤ tail.length + 1) :
    ∃ i, decodeTagged b0 tail c = .op i ((b0 :: tail).drop c.length) := by
  cases c
  case luma =>
    rcases tail with _ | ⟨b1, tail⟩
    case cons => exact ⟨_, rfl⟩
    all_goals exact absurd h (by simp [TagClass.length])
  case rgb =>
    rcases tail with _ | ⟨r, _ | ⟨g, _ | ⟨b, tail⟩⟩⟩
    case cons.cons.cons => exact ⟨_, rfl⟩
    all_goals exact absurd h (by simp [TagClass.length])
  case rgba =>
    rcases tail with _ | ⟨r, _ | ⟨g, _ | ⟨b, _ | ⟨a, tail⟩⟩⟩⟩
    case cons.cons.cons.cons => exact ⟨_, rfl⟩
    all_goals exact absurd h (by simp [TagClass.length])
  all_goals exact ⟨_, rfl⟩

/-- With an operand byte missing it is cut short (30_encoding.md R77). -/
theorem decodeTagged_short (b0 : Byte) {tail : List Byte} {c : TagClass} (h : tail.length + 1 < c.length) :
    decodeTagged b0 tail c = .cutShort c := by
  cases c
  case luma =>
    rcases tail with _ | ⟨b1, tail⟩
    case nil => rfl
    all_goals exact absurd h (by simp [TagClass.length])
  case rgb =>
    rcases tail with _ | ⟨r, _ | ⟨g, _ | ⟨b, tail⟩⟩⟩
    case cons.cons.cons => exact absurd h (by simp [TagClass.length])
    all_goals rfl
  case rgba =>
    rcases tail with _ | ⟨r, _ | ⟨g, _ | ⟨b, _ | ⟨a, tail⟩⟩⟩⟩
    case cons.cons.cons.cons => exact absurd h (by simp [TagClass.length])
    all_goals rfl
  all_goals exact absurd h (by simp [TagClass.length])

/-- Settles O4: the number in the statement is the length of the tag's class. -/
theorem operationLengthFollowsFromTheTag : Obligations.OperationLengthFollowsFromTheTag := by
  intro b0 rest
  rw [← length_tagClass]
  exact ⟨fun enough => decodeTagged_complete b0 enough, fun short => ⟨_, decodeTagged_short b0 short⟩⟩

/-- Settles O5: each word is closed, so the decoder computes its reading. -/
theorem sampleWordsDecode : Obligations.SampleWordsDecode := by
  unfold Obligations.SampleWordsDecode
  decide

end Sys2Proof

/-! SUPPORT. The hash in wider arithmetic (40_hash_cache.md R85), and the encoder's channel deltas as numbers (41_encoder.md R106). -/

namespace Sys2Proof.Machine

/-- Settles O7: cutting to 6 bits commutes with sums and products of at least 6 bits, so every width computes the sum in 6 bits. -/
theorem hashMayBeComputedInAnyWidth : Obligations.HashMayBeComputedInAnyWidth := by
  intro p w hw
  have weighted (x : Byte) (n : Nat) : (x.setWidth w * BitVec.ofNat w n).setWidth 6 = BitVec.ofNat 6 (x.toNat * n) := by
    rw [BitVec.setWidth_mul _ _ hw, BitVec.setWidth_setWidth_of_le _ hw, BitVec.setWidth_ofNat_of_le hw,
      ← BitVec.ofNat_toNat, BitVec.ofNat_mul]
  have inSixBits : pixelHash p = BitVec.ofNat 6 (p.r.toNat * 3) + BitVec.ofNat 6 (p.g.toNat * 5) +
      BitVec.ofNat 6 (p.b.toNat * 7) + BitVec.ofNat 6 (p.a.toNat * 11) := by
    rw [pixelHash, BitVec.ofNat_add, BitVec.ofNat_add, BitVec.ofNat_add]
  rw [BitVec.setWidth_add _ _ hw, BitVec.setWidth_add _ _ hw, BitVec.setWidth_add _ _ hw, inSixBits]
  exact congrArg₂ _ (congrArg₂ _ (congrArg₂ _ (weighted p.r 3) (weighted p.g 5)) (weighted p.b 7)) (weighted p.a 11)

/-- sext_8 of wrap8 is the int of [-128, 127] that agrees mod 256 (00_scope.md R14). -/
theorem sext8_wrap8 (x : Int) :
    -128 ≤ sext8 (wrap8 x) ∧ sext8 (wrap8 x) ≤ 127 ∧ (sext8 (wrap8 x) - x) % 256 = 0 := by
  have number := toNat_wrap8 x
  rw [sext8]
  split <;> omega

/-- Settles O32: a WRAP8 delta is the signed byte of the difference. With dg in [-32, 31] a sub-delta that a second wrap changes is
below -128 or above 127, and wrapped it is still outside [-8, 7]. -/
theorem deltaModesAndTheLumaTest : Obligations.DeltaModesAndTheLumaTest := by
  refine ⟨fun c q => sext8_wrap8 _, fun c q => rfl, fun px q dr dg db hd => ?_⟩
  obtain ⟨rfl, rfl, rfl⟩ : channelDelta .wrap8 px.r q.r = dr ∧ channelDelta .wrap8 px.g q.g = dg ∧
      channelDelta .wrap8 px.b q.b = db := by simpa [deltasOf] using hd
  have inByte (c p : Byte) : -128 ≤ channelDelta .wrap8 c p ∧ channelDelta .wrap8 c p ≤ 127 :=
    ⟨(sext8_wrap8 _).1, (sext8_wrap8 _).2.1⟩
  have := inByte px.r q.r
  have := inByte px.g q.g
  have := inByte px.b q.b
  generalize channelDelta .wrap8 px.r q.r = dr, channelDelta .wrap8 px.g q.g = dg, channelDelta .wrap8 px.b q.b = db at *
  have := sext8_wrap8 (dr - dg)
  have := sext8_wrap8 (db - dg)
  rw [Bool.eq_iff_iff, fitsLuma_iff]
  simp only [Bool.and_eq_true, inRange_iff]
  omega

end Sys2Proof.Machine

/-! SUPPORT. The encoder as a function of the three registers it carries from pixel to pixel (41_encoder.md R98): the operations it
writes for a pixel, and the registers after it. -/

namespace Sys2Proof.Machine

/-- PREV, RUN and CACHE: all that one pixel step leaves for the next (10_state.md R30 to R32). -/
structure Registers where
  prev : Pixel
  run : BitVec 6
  cache : Cache

def State.registers (s : State) : Registers := ⟨s.prev, s.run, s.cache⟩

/-- A repeat of PREV ends its run: it is the 62nd, or on the last pixel (41_encoder.md R100). -/
def Registers.runEnds (last : Bool) (q : Registers) : Bool := decide ((q.run + 1).toNat = runMax) || last

/-- The operations written for the pixel px (41_encoder.md R99 to R103). -/
def Registers.ops (m : DeltaMode) (last : Bool) (px : Pixel) (q : Registers) : List Instr :=
  if px = q.prev then if q.runEnds last then [.run (q.run + 1).toNat] else []
  else (if q.run.toNat > 0 then [.run q.run.toNat] else []) ++ [tagMux m px q.prev q.cache]

/-- The registers after the pixel px (41_encoder.md R99 to R105, R111). -/
def Registers.next (last : Bool) (px : Pixel) (q : Registers) : Registers :=
  if px = q.prev then ⟨px, if q.runEnds last then 0 else q.run + 1, q.cache⟩ else ⟨px, 0, tagMuxCache px q.cache⟩

theorem Registers.runEnds_iff {last : Bool} {q : Registers} :
    q.runEnds last = true ↔ (q.run + 1).toNat = runMax ∨ last = true := by
  rw [runEnds, Bool.or_eq_true, decide_eq_true_eq]

theorem Registers.runEnds_eq_false_iff {last : Bool} {q : Registers} :
    q.runEnds last = false ↔ (q.run + 1).toNat ≠ 62 ∧ last = false := by
  rw [← Bool.not_eq_true, runEnds_iff, not_or, Bool.not_eq_true]

/-- A run in range is counted without wrapping (10_state.md R31). -/
theorem toNat_count_succ {run : BitVec 6} (h : run.toNat ≤ 61) : (run + 1).toNat = run.toNat + 1 := by
  rw [BitVec.toNat_add]
  exact Nat.mod_eq_of_lt (show run.toNat + 1 < 64 by omega)

section
variable (m : DeltaMode) {last : Bool} {px : Pixel} {q : Registers}

theorem Registers.ops_of_ends (he : px = q.prev) (hf : q.runEnds last = true) :
    q.ops m last px = [.run (q.run + 1).toNat] := by
  rw [ops, if_pos he, if_pos hf]

theorem Registers.ops_of_extends (he : px = q.prev) (hf : q.runEnds last = false) : q.ops m last px = [] := by
  rw [ops, if_pos he, hf, if_neg Bool.false_ne_true]

theorem Registers.ops_of_different (he : px ≠ q.prev) :
    q.ops m last px = (if q.run.toNat > 0 then [.run q.run.toNat] else []) ++ [tagMux m px q.prev q.cache] := by
  rw [ops, if_neg he]

theorem Registers.next_of_ends (he : px = q.prev) (hf : q.runEnds last = true) : q.next last px = ⟨px, 0, q.cache⟩ := by
  rw [next, if_pos he, if_pos hf]

theorem Registers.next_of_extends (he : px = q.prev) (hf : q.runEnds last = false) :
    q.next last px = ⟨px, q.run + 1, q.cache⟩ := by
  rw [next, if_pos he, hf, if_neg Bool.false_ne_true]

theorem Registers.next_of_different (he : px ≠ q.prev) : q.next last px = ⟨px, 0, tagMuxCache px q.cache⟩ := by
  rw [next, if_neg he]

@[simp] theorem Registers.next_prev : (q.next last px).prev = px := by
  rw [next]
  split <;> rfl

end

/-- The encoder's step for one pixel is this function: it commits the bytes of the operations and leaves the next registers
(41_encoder.md R98). -/
theorem encodePixel_eq (px : Pixel) (s : State) :
    encodePixel px s = commit ((s.registers.ops s.cfg.deltaMode s.lastPixel px).flatMap encode)
      (advancePixel px .ePad { s with
        run := (s.registers.next s.lastPixel px).run, cache := (s.registers.next s.lastPixel px).cache }) := by
  by_cases he : px = s.prev
  · cases hf : s.registers.runEnds s.lastPixel
    · have goesOn : ¬ ((s.run + 1).toNat = runMax ∨ s.lastPixel = true) :=
        mt (Registers.runEnds_iff (q := s.registers)).mpr (Bool.eq_false_iff.mp hf)
      rw [encodePixel_extend he goesOn, Registers.ops_of_extends _ he hf, Registers.next_of_extends he hf]
      rfl
    · rw [encodePixel_flush he (Registers.runEnds_iff.mp hf), Registers.ops_of_ends _ he hf, Registers.next_of_ends he hf]
      simp [State.registers]
  · have flush : (if s.run.toNat > 0 then encode (.run s.run.toNat) else []) =
        (if s.run.toNat > 0 then [Instr.run s.run.toNat] else []).flatMap encode := by
      split <;> simp
    rw [encodePixel_different he, Registers.ops_of_different _ he, Registers.next_of_different he, flush]
    simp [State.registers]

end Sys2Proof.Machine

/-! SUPPORT. What a step can answer (10_state.md R41, 20_memory.md R54, R55, 60_exceptions.md R138, R139): where it waits, where it is
refused, and that it does nothing else but go on. -/

namespace Sys2Proof.Machine

/-- The answer is a next state, or a wait or rest of the spec's: no refusal, and not the model's own fault. -/
def NextOrWait (r : Result) : Prop := (∃ t, r = .next t) ∨ ∃ f, r = .fault f ∧ f ≠ .illegalChannels

theorem nextOrWait_next (t : State) : NextOrWait (.next t) := .inl ⟨t, rfl⟩

theorem nextOrWait_waitInput : NextOrWait (.fault .waitInput) := .inr ⟨_, rfl, nofun⟩

theorem nextOrWait_atRest : NextOrWait (.fault .atRest) := .inr ⟨_, rfl, nofun⟩

theorem commit_nextOrWait (bytes : List Byte) (s : State) : NextOrWait (commit bytes s) := by
  obtain ⟨-, h⟩ | ⟨-, h⟩ := commit_cases bytes s <;> rw [h]
  · exact nextOrWait_next _
  · exact .inr ⟨_, rfl, nofun⟩

theorem exec_nextOrWait (i : Instr) (s : State) : NextOrWait (exec i s) := by
  cases i <;> exact commit_nextOrWait _ _

theorem decMagic_nextOrWait (s : State) : NextOrWait (decMagic s) := by
  rw [decMagic]
  split
  · exact nextOrWait_waitInput
  · split <;> exact nextOrWait_next _

theorem decHeader_nextOrWait (s : State) : NextOrWait (decHeader s) := by
  rw [decHeader]
  split
  · exact nextOrWait_next _
  · exact nextOrWait_waitInput

theorem decPad_nextOrWait (s : State) : NextOrWait (decPad s) := by
  rw [decPad]
  split
  · exact nextOrWait_waitInput
  · split <;> exact nextOrWait_next _

theorem decPixel_nextOrWait (s : State) : NextOrWait (decPixel s) := by
  rw [decPixel]
  split
  · exact commit_nextOrWait _ _
  · split
    · exact exec_nextOrWait _ _
    · exact nextOrWait_waitInput
    · exact nextOrWait_waitInput

/-- Three or four bytes are a pixel (41_encoder.md R97). -/
theorem pixelOfRaw_of_length {raw : List Byte} (h : raw.length = 3 ∨ raw.length = 4) : ∃ px, pixelOfRaw raw = some px := by
  rcases raw with _ | ⟨r, _ | ⟨g, _ | ⟨b, _ | ⟨a, _ | ⟨x, raw⟩⟩⟩⟩⟩
  case cons.cons.cons.nil => exact ⟨_, rfl⟩
  case cons.cons.cons.cons.nil => exact ⟨_, rfl⟩
  all_goals
    simp only [List.length_cons, List.length_nil] at h
    omega

theorem encPixel_nextOrWait {s : State} (hc : s.channels = 3#8 ∨ s.channels = 4#8) : NextOrWait (encPixel s) := by
  rw [encPixel]
  split
  · exact nextOrWait_waitInput
  · rename_i raw rest read
    have length : raw.length = 3 ∨ raw.length = 4 := by
      rw [(memRead_some read).2]
      exact hc.imp (congrArg BitVec.toNat) (congrArg BitVec.toNat)
    obtain ⟨px, hpx⟩ := pixelOfRaw_of_length length
    simp only [hpx]
    exact commit_nextOrWait _ _

theorem encPixel_ne_refused (s : State) (r : Refusal) : encPixel s ≠ .refused r := by
  rw [encPixel]
  split
  · nofun
  · split
    · nofun
    · intro h
      obtain ⟨t, ht⟩ | ⟨f, hf, -⟩ := commit_nextOrWait _ _
      · exact nomatch ht.symm.trans h
      · exact nomatch hf.symm.trans h

/-- The codec goes on or waits, but for an encoder pixel step whose CHANNELS is neither 3 nor 4 (log 12). -/
theorem codecStep_nextOrWait {s : State} (hc : s.phase = .ePix → s.channels = 3#8 ∨ s.channels = 4#8) :
    NextOrWait (codecStep s) := by
  cases hp : s.phase
  case idle => rw [codecStep_idle hp]; exact nextOrWait_atRest
  case eHdr => rw [codecStep_eHdr hp]; exact commit_nextOrWait _ _
  case ePix => rw [codecStep_ePix hp]; exact encPixel_nextOrWait (hc hp)
  case ePad => rw [codecStep_ePad hp]; exact commit_nextOrWait _ _
  case dMagic => rw [codecStep_dMagic hp]; exact decMagic_nextOrWait s
  case dHdr => rw [codecStep_dHdr hp]; exact decHeader_nextOrWait s
  case dPix => rw [codecStep_dPix hp]; exact decPixel_nextOrWait s
  case dPad => rw [codecStep_dPad hp]; exact decPad_nextOrWait s
  case done => rw [codecStep_done hp]; exact nextOrWait_atRest

/-- The codec refuses nothing, whatever CHANNELS holds: only commands are refused (60_exceptions.md R138). -/
theorem codecStep_ne_refused (s : State) (r : Refusal) : codecStep s ≠ .refused r := by
  intro h
  by_cases hp : s.phase = .ePix
  · exact encPixel_ne_refused s r ((codecStep_ePix hp).symm.trans h)
  · obtain ⟨t, ht⟩ | ⟨f, hf, -⟩ := codecStep_nextOrWait (fun e => absurd e hp)
    · exact nomatch ht.symm.trans h
    · exact nomatch hf.symm.trans h

/-- Every wait of the codec leaves its turn as a next state when the host still has moves (log 7). -/
theorem codecTurn_next_or_illegalChannels (s : State) :
    (∃ t, codecTurn s = .next t) ∨ codecTurn s = .fault .illegalChannels ∧ codecStep s = .fault .illegalChannels := by
  cases h : codecStep s with
  | next t => exact .inl ⟨t, codecTurn_of_next h⟩
  | fault f =>
    by_cases hf : f = .illegalChannels
    · subst hf
      exact .inr ⟨by rw [codecTurn, h], rfl⟩
    · exact .inl ⟨s, codecTurn_of_wait h hf⟩
  | refused r => exact absurd h (codecStep_ne_refused s r)

theorem atRest_eq_false_iff (s : State) : s.atRest = false ↔ s.phase ≠ .idle ∧ s.phase ≠ .done := by
  rw [← Bool.not_eq_true, atRest_iff, not_or]

/-- A command's refusals in one table: Busy unless at rest, and its own refusal at rest when its arguments are illegal
(60_exceptions.md R138, log 8). -/
theorem refusal_table {answer : Result} {s t : State} {legal : Prop} [Decidable legal] {own : Refusal} (hown : own ≠ .busy)
    (busy : s.atRest = false → answer = .refused .busy)
    (rest : s.atRest = true → answer = if legal then .next t else .refused own) :
    (answer = .refused .busy ↔ s.phase ≠ .idle ∧ s.phase ≠ .done) ∧
    (answer = .refused own ↔ (s.phase = .idle ∨ s.phase = .done) ∧ ¬ legal) := by
  rw [← atRest_eq_false_iff, ← atRest_iff]
  cases h : s.atRest
  · rw [busy h]
    simp [hown.symm]
  · rw [rest h]
    by_cases hl : legal <;> simp [hl, hown]

/-- Settles O37: each command's answer is read off its acceptance; the codec and the host's other moves refuse nothing. -/
theorem onlyIllegalCommandsAreRefused : Obligations.OnlyIllegalCommandsAreRefused := by
  refine ⟨fun s w h c cs ms hhost => ?encode, fun s oc ms hhost => ?decode, fun s r hr => ?others⟩
  case encode =>
    rw [step_of_move hhost]
    exact refusal_table (s := { s with host := ms }) nofun acceptEncode_busy acceptEncode_at_rest
  case decode =>
    rw [step_of_move hhost]
    exact refusal_table (s := { s with host := ms }) nofun acceptDecode_busy acceptDecode_at_rest
  case others =>
    cases hhost : s.host with
    | nil => exact absurd ((step_of_codec hhost).symm.trans hr) (codecStep_ne_refused s r)
    | cons m ms =>
      rw [step_of_move hhost] at hr
      refine ⟨m, ms, rfl, ?_⟩
      cases m with
      | encode w h c cs => exact .inl ⟨w, h, c, cs, rfl⟩
      | decode oc => exact .inr ⟨oc, rfl⟩
      | leave =>
        obtain ⟨t, ht⟩ | ⟨hf, -⟩ := codecTurn_next_or_illegalChannels { s with host := ms }
        · exact nomatch ht.symm.trans hr
        · exact nomatch hf.symm.trans hr
      | supply bytes => cases hr
      | take n => cases hr
      | reset => cases hr

/-- Where the codec has no move nothing happens: it is stuck when no host move is left, and passes a turn that is left to it
(60_exceptions.md R139, log 7). -/
theorem step_of_no_move {s : State} {f : Fault} (hf : f ≠ .illegalChannels)
    (h : ∀ ms, codecStep { s with host := ms } = .fault f) :
    (s.host = [] → step s = .fault f) ∧ ∀ ms, s.host = .leave :: ms → step s = .next { s with host := ms } :=
  ⟨fun hh => (step_of_codec hh).trans (h s.host), fun ms hh => (step_of_move hh).trans (codecTurn_of_wait (h ms) hf)⟩

theorem memRead_of_short {n : Nat} {inp : List Byte} (h : inp.length < n) : memRead n inp = none :=
  if_neg (Nat.not_le.mpr h)

theorem decHeader_of_short {s : State} (h : s.inp.length < 10) : decHeader s = .fault .waitInput := by
  rw [decHeader]
  split
  · rename_i hi
    rw [hi] at h
    simp only [List.length_cons] at h
    omega
  · rfl

/-- Every phase that reads waits when IN is short (20_memory.md R54). -/
theorem codecStep_of_short_input {s : State}
    (h : s.phase = .ePix ∧ s.inp.length < s.channels.toNat ∨ s.phase = .dMagic ∧ s.inp.length < 4 ∨
      s.phase = .dHdr ∧ s.inp.length < 10 ∨ s.phase = .dPad ∧ s.inp.length < 8 ∨
      s.phase = .dPix ∧ s.run = 0 ∧ ∀ i rest, decode s.inp ≠ .op i rest) :
    codecStep s = .fault .waitInput := by
  obtain ⟨hp, hi⟩ | ⟨hp, hi⟩ | ⟨hp, hi⟩ | ⟨hp, hi⟩ | ⟨hp, hr, hd⟩ := h
  · rw [codecStep_ePix hp, encPixel, memRead_of_short hi]
  · rw [codecStep_dMagic hp, decMagic, memRead_of_short hi]
  · rw [codecStep_dHdr hp, decHeader_of_short hi]
  · rw [codecStep_dPad hp, decPad, memRead_of_short hi]
  · rw [codecStep_dPix hp, decPixel_of_no_op hr hd]

theorem codecStep_at_rest {s : State} (h : s.phase = .idle ∨ s.phase = .done) : codecStep s = .fault .atRest :=
  h.elim codecStep_idle codecStep_done

/-- Settles O39: in each case the codec has no move, whatever moves the host has left. -/
theorem shortInputAndRestHaveNoMove : Obligations.ShortInputAndRestHaveNoMove := fun s =>
  ⟨fun h => step_of_no_move nofun fun ms => codecStep_of_short_input (s := { s with host := ms }) h,
    fun h => step_of_no_move nofun fun ms => codecStep_at_rest (s := { s with host := ms }) h⟩

theorem encPixel_of_raw {s : State} {raw rest : List Byte} {px : Pixel} (hi : s.inp = raw ++ rest)
    (hlen : raw.length = s.channels.toNat) (hraw : pixelOfRaw raw = some px) :
    encPixel s = encodePixel px { s with inp := rest } := by
  have read : memRead s.channels.toNat s.inp = some (raw, rest) := by rw [hi, ← hlen, memRead_append]
  rw [encPixel, read]
  simp only [hraw]

/-- An encoder pixel step waits when OUT cannot accept the bytes that the same step writes to an unbounded OUT
(20_memory.md R55). -/
theorem encPixel_of_full {s u : State} {bytes : List Byte}
    (h : encPixel { s with host := [], cfg := { s.cfg with outCap := none } } = .next u) (hw : WroteBytes bytes s u)
    (ha : s.accepts bytes.length = false) : encPixel s = .fault .waitOutput := by
  obtain ⟨px, raw, rest, hi, hlen, hraw, henc⟩ := encPixel_next h
  rw [encodePixel_eq] at henc
  obtain ⟨-, rfl⟩ := commit_next henc
  obtain rfl : (s.registers.ops s.cfg.deltaMode s.lastPixel px).flatMap encode = bytes := List.append_cancel_left hw.1
  rw [encPixel_of_raw (s := s) hi hlen hraw, encodePixel_eq]
  exact commit_of_full _ _ ha

theorem length_pixelBytes {oc : Byte} (h : oc = 3#8 ∨ oc = 4#8) (px : Pixel) : (pixelBytes oc px).length = oc.toNat := by
  obtain rfl | rfl := h <;> rfl

theorem decPixel_of_full {s : State} (hoc : s.outCh = 3#8 ∨ s.outCh = 4#8) (ha : s.accepts s.outCh.toNat = false)
    (hd : 0 < s.run.toNat ∨ ∃ i rest, decode s.inp = .op i rest) : decPixel s = .fault .waitOutput := by
  have full (px : Pixel) : s.accepts (pixelBytes s.outCh px).length = false := by rw [length_pixelBytes hoc, ha]
  rw [decPixel]
  split
  · exact commit_of_full _ _ (full _)
  · rename_i hr
    obtain ⟨i, rest, hi⟩ := hd.resolve_left hr
    simp only [hi]
    cases i <;> exact commit_of_full _ _ (full _)

/-- Every phase that writes waits when OUT is full (20_memory.md R55). -/
theorem codecStep_of_full_output {s : State}
    (h : s.phase = .eHdr ∧ s.accepts 14 = false ∨ s.phase = .ePad ∧ s.accepts 8 = false ∨
      (s.phase = .ePix ∧ ∃ u bytes, step { s with host := [], cfg := { s.cfg with outCap := none } } = .next u ∧
        WroteBytes bytes s u ∧ s.accepts bytes.length = false) ∨
      s.phase = .dPix ∧ (s.outCh = 3#8 ∨ s.outCh = 4#8) ∧ s.accepts s.outCh.toNat = false ∧
        (0 < s.run.toNat ∨ ∃ i rest, decode s.inp = .op i rest)) :
    codecStep s = .fault .waitOutput := by
  obtain ⟨hp, ha⟩ | ⟨hp, ha⟩ | ⟨hp, u, bytes, hu, hw, ha⟩ | ⟨hp, hoc, ha, hd⟩ := h
  · exact (codecStep_eHdr hp).trans (commit_of_full _ _ ha)
  · exact (codecStep_ePad hp).trans (commit_of_full _ _ ha)
  · rw [step_of_codec rfl] at hu
    have pixelStep := codecStep_ePix (s := { s with host := [], cfg := { s.cfg with outCap := none } }) hp
    exact (codecStep_ePix hp).trans (encPixel_of_full (pixelStep.symm.trans hu) hw ha)
  · exact (codecStep_dPix hp).trans (decPixel_of_full hoc ha hd)

/-- Settles O40: in each case the codec has no move, whatever moves the host has left. -/
theorem fullOutputHasNoMove : Obligations.FullOutputHasNoMove := fun s h =>
  step_of_no_move nofun fun ms => codecStep_of_full_output (s := { s with host := ms }) h

theorem acceptEncode_ne_fault {w h : BitVec 32} {c cs : Byte} {s : State} {f : Fault} : acceptEncode w h c cs s ≠ .fault f := by
  rw [acceptEncode]
  split
  · nofun
  · split <;> nofun

theorem acceptDecode_ne_fault {oc : Byte} {s : State} {f : Fault} : acceptDecode oc s ≠ .fault f := by
  rw [acceptDecode]
  split
  · nofun
  · split <;> nofun

/-- Settles O51: a running ENCODE has legal CHANNELS, so the codec goes on or waits, and a wait in a turn with host moves left
passes it. -/
theorem onlyWaitsAndRefusalsStopAStep : Obligations.OnlyWaitsAndRefusalsStopAStep := by
  intro s inv
  have legal : s.phase = .ePix → s.channels = 3#8 ∨ s.channels = 4#8 :=
    fun hp => (inv.args.1 (by rw [hp]; rfl)).1
  have codec (ms : List HostMove) : codecStep { s with host := ms } ≠ .fault .illegalChannels := by
    intro h
    obtain ⟨t, ht⟩ | ⟨f, hf, hne⟩ := codecStep_nextOrWait (s := { s with host := ms }) legal
    · exact nomatch ht.symm.trans h
    · cases hf.symm.trans h
      exact hne rfl
  cases hhost : s.host with
  | nil => exact ⟨fun h => codec s.host ((step_of_codec hhost).symm.trans h), fun _ => rfl⟩
  | cons m ms =>
    suffices noFault : ∀ f, step s ≠ .fault f from ⟨noFault _, fun h => by simp [noFault] at h⟩
    intro f hf
    rw [step_of_move hhost] at hf
    cases m with
    | leave =>
      obtain ⟨t, ht⟩ | ⟨-, hstep⟩ := codecTurn_next_or_illegalChannels { s with host := ms }
      · exact nomatch ht.symm.trans hf
      · exact codec ms hstep
    | encode w h c cs => exact acceptEncode_ne_fault hf
    | decode oc => exact acceptDecode_ne_fault hf
    | supply bytes => cases hf
    | take n => cases hf
    | reset => cases hf

/-- Settles O15: what the decoder reads is well formed, and the pixel step runs it; its wait passes a turn left to the codec. -/
theorem stepRunsTheDecodedOperation : Obligations.StepRunsTheDecodedOperation := by
  intro s i rest hp hr hd
  have runs (ms : List HostMove) : codecStep { s with host := ms } = exec i { s with inp := rest, host := ms } :=
    (codecStep_dPix (s := { s with host := ms }) hp).trans (decPixel_of_op hr hd)
  refine ⟨(encodeOfDecodeGivesTheBytes _ _ _ hd).1, fun hh => (step_of_codec hh).trans (runs s.host), ?next, ?wait⟩
  case next => exact fun ms t hh ht => (step_of_move hh).trans (codecTurn_of_next ((runs ms).trans ht))
  case wait => exact fun ms hh hw => (step_of_move hh).trans (codecTurn_of_wait ((runs ms).trans hw) nofun)

/-- Settles O42: each move is the record update itself. -/
theorem hostMovesBytesInOrder : Obligations.HostMovesBytesInOrder :=
  ⟨fun _ _ _ hh => step_of_move hh, fun _ _ _ hh => step_of_move hh⟩

end Sys2Proof.Machine

/-! SUPPORT. Everything one step of the codec can do when it answers a next state, in one list (10_state.md R41): the invariants, the
phase table and the streams are read off it. -/

namespace Sys2Proof.Machine

/-- The streams move as a codec step may move them: IN loses a front of at most 10 bytes, OUT gains at most 14
(20_memory.md R53, R61). -/
def StreamsMoved (s t : State) : Prop :=
  ∃ n bytes, n ≤ s.inp.length ∧ n ≤ 10 ∧ t.inp = s.inp.drop n ∧ bytes.length ≤ 14 ∧ WroteBytes bytes s t

theorem streamsMoved_of_read {s t : State} {front rest bytes : List Byte} (hi : s.inp = front ++ rest) (hin : t.inp = rest)
    (hlen : front.length ≤ 10) (hbytes : bytes.length ≤ 14) (hw : WroteBytes bytes s t) : StreamsMoved s t := by
  refine ⟨front.length, bytes, ?_, hlen, ?_, hbytes, hw⟩
  · rw [hi, List.length_append]
    exact Nat.le_add_right _ _
  · rw [hin, hi, List.drop_left]

/-- What a pixel step of either direction does; pad is the end-marker phase of its direction (41_encoder.md R98,
42_decoder.md R119). -/
structure PixelStepped (pad : Phase) (s t : State) : Prop where
  pixcnt : t.pixcnt = s.pixcnt + 1
  phase : t.phase = if (s.pixcnt + 1).toNat = s.npix then pad else s.phase
  status : t.status = s.status
  header : SameHeader s t
  environment : SameEnvironment s t
  run : s.run.toNat ≤ 61 → t.run.toNat ≤ 61
  /-- The encoder has no run pending after the last pixel (41_encoder.md R100, R101). -/
  pending : pad = .ePad → s.lastPixel = true → t.run = 0
  cache : t.cache = s.cache ∨ t.cache = cacheWrite s.cache (pixelHash t.prev) t.prev
  streams : StreamsMoved s t

/-- A codec step, by what it does. -/
inductive CodecStepped (s : State) : State → Prop where
  /-- 41_encoder.md R96. -/
  | writesHeader (hp : s.phase = .eHdr) : CodecStepped s { s with
      phase := if s.npix > 0 then .ePix else .ePad
      out := s.out ++ encodeHeader s.width s.height s.channels s.colorspace
      written := s.written ++ encodeHeader s.width s.height s.channels s.colorspace }
  /-- 41_encoder.md R113. -/
  | writesEndMarker (hp : s.phase = .ePad) :
    CodecStepped s { finishValid s with out := s.out ++ endMarker, written := s.written ++ endMarker }
  /-- 41_encoder.md R98, 42_decoder.md R119. -/
  | pixel {pad : Phase} {t : State} (direction : s.phase = .ePix ∧ pad = .ePad ∨ s.phase = .dPix ∧ pad = .dPad)
      (h : PixelStepped pad s t) : CodecStepped s t
  /-- 42_decoder.md R117, the bytes match. -/
  | passesMagic {rest : List Byte} (hp : s.phase = .dMagic) (hi : s.inp = magicBytes ++ rest) :
    CodecStepped s { s with inp := rest, phase := .dHdr }
  /-- 42_decoder.md R117, the bytes do not match. -/
  | failsMagic {m rest : List Byte} (hp : s.phase = .dMagic) (hi : s.inp = m ++ rest) (hlen : m.length = 4)
      (hm : m ≠ magicBytes) : CodecStepped s (raiseError .magicMismatch { s with inp := rest })
  /-- 42_decoder.md R118. -/
  | readsHeader {w h : BitVec 32} {c cs : Byte} {front rest : List Byte} (hp : s.phase = .dHdr) (hi : s.inp = front ++ rest)
      (hlen : front.length = 10) : CodecStepped s (loadHeader w h c cs { s with inp := rest })
  /-- 42_decoder.md R131, the bytes match. -/
  | passesEndMarker {rest : List Byte} (hp : s.phase = .dPad) (hi : s.inp = endMarker ++ rest) :
    CodecStepped s (finishValid { s with inp := rest })
  /-- 42_decoder.md R131, the bytes do not match. -/
  | failsEndMarker {m rest : List Byte} (hp : s.phase = .dPad) (hi : s.inp = m ++ rest) (hlen : m.length = 8)
      (hm : m ≠ endMarker) : CodecStepped s (raiseError .padMismatch { s with inp := rest })

theorem Registers.next_run_le {last : Bool} {px : Pixel} {q : Registers} (h : q.run.toNat ≤ 61) :
    (q.next last px).run.toNat ≤ 61 := by
  by_cases he : px = q.prev
  · cases hf : q.runEnds last
    · obtain ⟨notFull, -⟩ := runEnds_eq_false_iff.mp hf
      have counted := toNat_count_succ h
      rw [next_of_extends he hf]
      show (q.run + 1).toNat ≤ 61
      omega
    · rw [next_of_ends he hf]
      exact Nat.zero_le _
  · rw [next_of_different he]
    exact Nat.zero_le _

theorem Registers.next_run_of_last {px : Pixel} {q : Registers} : (q.next true px).run = 0 := by
  rw [next]
  split
  · rw [runEnds, Bool.or_true, if_pos rfl]
  · rfl

/-- The cache is kept, or the pixel is written at its hash: a hit writes what the slot holds (41_encoder.md R104, R105). -/
theorem tagMuxCache_eq (px : Pixel) (cache : Cache) : tagMuxCache px cache = cacheWrite cache (pixelHash px) px := by
  by_cases h : cacheRead cache (pixelHash px) = px
  · have same := cacheWrite_same cache (pixelHash px)
    rw [h] at same
    rw [tagMuxCache_of_hit h, same]
  · rw [tagMuxCache, if_neg (mt (cacheHit_iff _ _).mp h)]

theorem Registers.next_cache {last : Bool} {px : Pixel} {q : Registers} :
    (q.next last px).cache = q.cache ∨ (q.next last px).cache = cacheWrite q.cache (pixelHash px) px := by
  rw [next]
  split
  · exact .inl rfl
  · exact .inr (tagMuxCache_eq px q.cache)

/-- A pixel is written as at most a RUN and one more operation (41_encoder.md R101). -/
theorem Registers.length_ops_le {m : DeltaMode} {last : Bool} {px : Pixel} {q : Registers} :
    ((q.ops m last px).flatMap encode).length ≤ 6 := by
  by_cases he : px = q.prev
  · cases hf : q.runEnds last
    · rw [ops_of_extends m he hf]
      exact Nat.zero_le _
    · rw [ops_of_ends m he hf]
      exact Nat.le_of_ble_eq_true rfl
  · have flush : ((if q.run.toNat > 0 then [Instr.run q.run.toNat] else []).flatMap encode).length ≤ 1 := by
      split <;> exact Nat.le_of_ble_eq_true rfl
    have operation := length_encode_le_five (tagMux m px q.prev q.cache)
    rw [ops_of_different m he, List.flatMap_append, List.length_append, List.flatMap_singleton]
    omega

theorem encPixel_stepped {s t : State} (h : encPixel s = .next t) : PixelStepped .ePad s t := by
  obtain ⟨px, raw, rest, hi, hlen, hraw, henc⟩ := encPixel_next h
  rw [encodePixel_eq] at henc
  obtain ⟨-, rfl⟩ := commit_next henc
  have short : raw.length ≤ 10 := by
    obtain ⟨rfl, -⟩ | rfl := pixelOfRaw_some hraw <;> exact Nat.le_of_ble_eq_true rfl
  refine ⟨rfl, rfl, rfl, ⟨rfl, rfl, rfl, rfl, rfl⟩, ⟨rfl, rfl, rfl, rfl⟩, Registers.next_run_le (q := s.registers),
    fun _ last => ?pending, ?cache,
    streamsMoved_of_read hi rfl short (Nat.le_trans Registers.length_ops_le (by decide)) ⟨rfl, rfl⟩⟩
  case pending =>
    have lastPixel : ({ s with inp := rest } : State).lastPixel = true := last
    simp only [lastPixel]
    exact Registers.next_run_of_last
  case cache => exact Registers.next_cache (q := s.registers)

/-- The RUN register of a decoded operation is in range: the operation is well formed (30_encoding.md R82). -/
theorem toNat_run_field_le {k : Nat} (h : (Instr.run k).WellFormed) : (BitVec.ofNat 6 (k - 1)).toNat ≤ 61 := by
  obtain ⟨-, hi⟩ := wellFormed_run_iff.mp h
  rw [BitVec.toNat_ofNat]
  omega

theorem decPixel_stepped {s t : State} (h : decPixel s = .next t) : PixelStepped .dPad s t := by
  have fewBytes (px : Pixel) : (pixelBytes s.outCh px).length ≤ 14 :=
    Nat.le_trans (List.length_take_le' _ _) (by simp)
  obtain ⟨hpos, h⟩ | ⟨hr, i, rest, hd, h⟩ := decPixel_next h
  · obtain ⟨-, rfl⟩ := emitPixel_next h
    have counted : (s.run - 1).toNat = s.run.toNat - 1 := BitVec.toNat_sub_of_le (BitVec.le_def.mpr hpos)
    have le : (s.run - 1).toNat ≤ s.run.toNat := counted ▸ Nat.sub_le _ _
    exact ⟨rfl, rfl, rfl, ⟨rfl, rfl, rfl, rfl, rfl⟩, ⟨rfl, rfl, rfl, rfl⟩, fun inRange => le.trans inRange, nofun, .inl rfl,
      streamsMoved_of_read (front := []) rfl rfl (Nat.zero_le _) (fewBytes _) ⟨rfl, rfl⟩⟩
  · obtain ⟨wf, hi⟩ := encodeOfDecodeGivesTheBytes _ _ _ hd
    have short : (encode i).length ≤ 10 := Nat.le_trans (length_encode_le_five i) (by decide)
    obtain ⟨px, run, cache, -, rfl, ⟨k, rfl, -, rfl, rfl⟩ | ⟨rfl, rfl⟩⟩ := exec_next h
    · exact ⟨rfl, rfl, rfl, ⟨rfl, rfl, rfl, rfl, rfl⟩, ⟨rfl, rfl, rfl, rfl⟩, fun _ => toNat_run_field_le wf, nofun, .inl rfl,
        streamsMoved_of_read hi.symm rfl short (fewBytes _) ⟨rfl, rfl⟩⟩
    · exact ⟨rfl, rfl, rfl, ⟨rfl, rfl, rfl, rfl, rfl⟩, ⟨rfl, rfl, rfl, rfl⟩, id, nofun, .inr rfl,
        streamsMoved_of_read hi.symm rfl short (fewBytes _) ⟨rfl, rfl⟩⟩

/-- Every codec step that answers a next state is in the list (10_state.md R41). -/
theorem codecStep_stepped {s t : State} (h : codecStep s = .next t) : CodecStepped s t := by
  obtain ⟨hp, h⟩ | ⟨hp, h⟩ | ⟨hp, h⟩ | ⟨hp, h⟩ | ⟨hp, h⟩ | ⟨hp, h⟩ | ⟨hp, h⟩ := codecStep_next h
  · obtain ⟨-, rfl⟩ := encHeader_next h
    exact .writesHeader hp
  · exact .pixel (.inl ⟨hp, rfl⟩) (encPixel_stepped h)
  · obtain ⟨-, rfl⟩ := encPad_next h
    exact .writesEndMarker hp
  · obtain ⟨m, rest, hi, hlen, ⟨rfl, rfl⟩ | ⟨hm, rfl⟩⟩ := decMagic_next h
    · exact .passesMagic hp hi
    · exact .failsMagic hp hi hlen hm
  · obtain ⟨w0, w1, w2, w3, h0, h1, h2, h3, c, cs, rest, hi, rfl⟩ := decHeader_next h
    exact .readsHeader (front := [w0, w1, w2, w3, h0, h1, h2, h3, c, cs]) hp hi rfl
  · exact .pixel (.inr ⟨hp, rfl⟩) (decPixel_stepped h)
  · obtain ⟨m, rest, hi, hlen, ⟨rfl, rfl⟩ | ⟨hm, rfl⟩⟩ := decPad_next h
    · exact .passesEndMarker hp hi
    · exact .failsEndMarker hp hi hlen hm

end Sys2Proof.Machine

/-! SUPPORT. The invariants (Safety.lean) are kept by every step: each is kept by the codec's steps, holds where an accepted command
starts, asks nothing in IDLE and reads neither stream nor the host's moves. -/

namespace Sys2Proof.Machine

/-- ENCODE's state once accepted (41_encoder.md R95). -/
def startedEncode (w h : BitVec 32) (c cs : Byte) (s : State) : State :=
  { startCommand s with width := w, height := h, channels := c, colorspace := cs, phase := .eHdr, command := some .encode }

/-- DECODE's state once accepted (42_decoder.md R116). -/
def startedDecode (oc : Byte) (s : State) : State :=
  { startCommand s with outCh := oc, phase := .dMagic, command := some .decode }

/-- What makes a property an invariant of step. -/
structure Kept (P : State → Prop) : Prop where
  codec : ∀ {s t}, P s → CodecStepped s t → P t
  encode : ∀ w h c cs s, (c = 3#8 ∨ c = 4#8) → (cs = 0#8 ∨ cs = 1#8) → P (startedEncode w h c cs s)
  decode : ∀ oc s, (oc = 3#8 ∨ oc = 4#8) → P (startedDecode oc s)
  reset : ∀ s, P (hardwareReset s)
  /-- The property reads neither stream and none of the host's moves. -/
  streams : ∀ {s : State} (inp out : List Byte) (ms : List HostMove), P s → P { s with inp := inp, out := out, host := ms }

theorem Kept.step {P : State → Prop} (kept : Kept P) {s t : State} (hs : P s) (h : step s = .next t) : P t := by
  obtain ⟨-, h⟩ | ⟨m, ms, -, h⟩ := step_next h
  · exact kept.codec hs (codecStep_stepped h)
  · have moved : P { s with host := ms } := kept.streams s.inp s.out ms hs
    obtain ⟨w, ht, c, cs, -, h⟩ | ⟨oc, -, h⟩ | ⟨bytes, -, rfl⟩ | ⟨n, -, rfl⟩ | ⟨-, rfl⟩ | ⟨-, h | rfl⟩ := hostTurn_next h
    · obtain ⟨-, hc, hcs, rfl⟩ := acceptEncode_next h
      exact kept.encode w ht c cs _ hc hcs
    · obtain ⟨-, hoc, rfl⟩ := acceptDecode_next h
      exact kept.decode oc _ hoc
    · exact kept.streams (s.inp ++ bytes) s.out ms moved
    · exact kept.streams s.inp (s.out.drop n) ms moved
    · exact kept.reset _
    · exact kept.codec moved (codecStep_stepped h)
    · exact moved

theorem running_of_phase {s : State} {p : Phase} (h : s.phase = p) (hp : p ≠ .idle ∧ p ≠ .done := by decide) :
    s.phase ≠ .idle ∧ s.phase ≠ .done :=
  h ▸ hp

theorem CodecStepped.running {s t : State} (h : CodecStepped s t) : s.phase ≠ .idle ∧ s.phase ≠ .done := by
  cases h
  case pixel direction _ => exact direction.elim (running_of_phase ·.1) (running_of_phase ·.1)
  all_goals exact running_of_phase ‹_›

/-- A pixel step stays in its command (10_state.md R41). -/
theorem PixelStepped.sameCommand {pad : Phase} {s t : State}
    (direction : s.phase = .ePix ∧ pad = .ePad ∨ s.phase = .dPix ∧ pad = .dPad) (h : PixelStepped pad s t) :
    t.phase.encoding = s.phase.encoding ∧ t.phase.decoding = s.phase.decoding ∧ t.phase ≠ .idle ∧ t.phase ≠ .done := by
  obtain ⟨hp, rfl⟩ | ⟨hp, rfl⟩ := direction <;> rw [h.phase, hp] <;> split <;> decide

/-! STATUS (10_state.md R34). -/

theorem statusMatchesPhase_running {s : State} (hr : s.phase ≠ .idle ∧ s.phase ≠ .done) :
    s.StatusMatchesPhase ↔ s.status = 0x01#32 :=
  ⟨fun h => h.2.2 hr.1 hr.2, fun h => ⟨fun e => absurd e hr.1, fun e => absurd e hr.2, fun _ _ => h⟩⟩

theorem statusMatchesPhase_done {s : State} (hd : s.phase = .done) :
    s.StatusMatchesPhase ↔ s.status = 0x06#32 ∨ s.status = 0x0a#32 ∨ s.status = 0x12#32 :=
  ⟨fun h => h.2.1 hd, fun h => ⟨fun e => (nomatch hd.symm.trans e), fun _ => h, fun _ e => absurd hd e⟩⟩

theorem finishValid_status_of_start {s : State} (h : s.status = 0x01#32) : (finishValid s).status = 0x06#32 := by
  rw [finishValid_status, h]
  decide

theorem raiseError_magicMismatch_status_of_start {s : State} (h : s.status = 0x01#32) :
    (raiseError .magicMismatch s).status = 0x0a#32 := by
  rw [raiseError_magicMismatch_status, h]
  decide

theorem raiseError_padMismatch_status_of_start {s : State} (h : s.status = 0x01#32) :
    (raiseError .padMismatch s).status = 0x12#32 := by
  rw [raiseError_padMismatch_status, h]
  decide

theorem statusMatchesPhase_codec {s t : State} (hs : s.StatusMatchesPhase) (h : CodecStepped s t) :
    t.StatusMatchesPhase := by
  have start : s.status = 0x01#32 := (statusMatchesPhase_running h.running).mp hs
  cases h with
  | writesHeader hp => exact (statusMatchesPhase_running (by dsimp only; split <;> decide)).mpr start
  | writesEndMarker hp => exact (statusMatchesPhase_done rfl).mpr (.inl (finishValid_status_of_start start))
  | pixel direction h =>
    obtain ⟨-, -, running⟩ := h.sameCommand direction
    exact (statusMatchesPhase_running running).mpr (h.status.trans start)
  | passesMagic hp hi => exact (statusMatchesPhase_running (running_of_phase (p := .dHdr) rfl)).mpr start
  | failsMagic hp hi hlen hm =>
    exact (statusMatchesPhase_done rfl).mpr (.inr (.inl (raiseError_magicMismatch_status_of_start start)))
  | readsHeader hp hi hlen =>
    exact (statusMatchesPhase_running (by rw [loadHeader_phase]; split <;> decide)).mpr start
  | passesEndMarker hp hi => exact (statusMatchesPhase_done rfl).mpr (.inl (finishValid_status_of_start start))
  | failsEndMarker hp hi hlen hm =>
    exact (statusMatchesPhase_done rfl).mpr (.inr (.inr (raiseError_padMismatch_status_of_start start)))

theorem statusMatchesPhase_kept : Kept State.StatusMatchesPhase where
  codec := statusMatchesPhase_codec
  encode _ _ _ _ _ _ _ := (statusMatchesPhase_running (running_of_phase (p := .eHdr) rfl)).mpr (show statusAtStart = 1#32 by decide)
  decode _ _ _ := (statusMatchesPhase_running (running_of_phase (p := .dMagic) rfl)).mpr (show statusAtStart = 1#32 by decide)
  reset _ := ⟨fun _ => rfl, nofun, fun hi => absurd rfl hi⟩
  streams _ _ _ h := h

/-- None of the five words that STATUS can hold has both error bits (10_state.md R35). -/
theorem not_both_errors {s : State} (h : s.StatusMatchesPhase) : ¬ (s.errMagic = true ∧ s.errPad = true) := by
  have word : s.status = 0#32 ∨ s.status = 0x01#32 ∨ s.status = 0x06#32 ∨ s.status = 0x0a#32 ∨ s.status = 0x12#32 := by
    by_cases hi : s.phase = .idle
    · exact .inl (h.1 hi)
    · by_cases hd : s.phase = .done
      · exact .inr (.inr (h.2.1 hd))
      · exact .inr (.inl (h.2.2 hi hd))
  rw [State.errMagic, State.errPad]
  obtain e | e | e | e | e := word <;> rw [e] <;> decide

/-! RUN and CACHE (10_state.md R31, 40_hash_cache.md R94). -/

theorem runInRange_codec {s t : State} (hs : s.RunInRange) (h : CodecStepped s t) : t.RunInRange := by
  have inRange := hs h.running.1
  cases h
  case pixel _ h => exact fun _ => h.run inRange
  all_goals exact fun _ => inRange

theorem runInRange_kept : Kept State.RunInRange where
  codec := runInRange_codec
  encode _ _ _ _ _ _ _ _ := Nat.zero_le _
  decode _ _ _ _ := Nat.zero_le _
  reset _ hi := absurd rfl hi
  streams _ _ _ h := h

theorem slotsHoldTheirHash_codec {s t : State} (hs : s.SlotsHoldTheirHash) (h : CodecStepped s t) :
    t.SlotsHoldTheirHash := by
  have hold := hs h.running.1
  cases h
  case pixel _ h =>
    intro _ i
    obtain same | written := h.cache
    · exact same ▸ hold i
    · rw [written, cacheRead_cacheWrite]
      split
      · exact .inr (Eq.symm ‹_›)
      · exact hold i
  all_goals exact fun _ => hold

theorem slotsHoldTheirHash_kept : Kept State.SlotsHoldTheirHash where
  codec := slotsHoldTheirHash_codec
  encode _ _ _ _ _ _ _ _ i := .inl (cacheRead_clearedCache i)
  decode _ _ _ _ i := .inl (cacheRead_clearedCache i)
  reset _ hi := absurd rfl hi
  streams _ _ _ h := h

/-! PIXCNT (10_state.md R33). -/

theorem pixcntMatchesPhase_before {s : State} (h : s.phase = .eHdr ∨ s.phase = .dMagic ∨ s.phase = .dHdr) :
    s.PixcntMatchesPhase ↔ s.pixcnt = 0#64 := by
  obtain h | h | h := h <;> simp [State.PixcntMatchesPhase, h]

theorem pixcntMatchesPhase_during {s : State} (h : s.phase = .ePix ∨ s.phase = .dPix) :
    s.PixcntMatchesPhase ↔ s.pixcnt.toNat < s.npix := by
  obtain h | h := h <;> simp [State.PixcntMatchesPhase, h]

theorem pixcntMatchesPhase_after {s : State} (h : s.phase = .ePad ∨ s.phase = .dPad) :
    s.PixcntMatchesPhase ↔ s.pixcnt.toNat = s.npix := by
  obtain h | h := h <;> simp [State.PixcntMatchesPhase, h]

theorem pixcntMatchesPhase_at_rest {s : State} (h : s.phase = .idle ∨ s.phase = .done) : s.PixcntMatchesPhase := by
  obtain h | h := h <;> simp [State.PixcntMatchesPhase, h]

/-- The pixel count of any header fits PIXCNT (00_scope.md R12). -/
theorem npix_lt (s : State) : s.npix < 2 ^ 64 :=
  calc s.npix < 2 ^ 32 * 2 ^ 32 := Nat.mul_lt_mul'' s.width.isLt s.height.isLt
    _ = 2 ^ 64 := rfl

theorem toNat_pixcnt_succ {s : State} (h : s.pixcnt.toNat < s.npix) : (s.pixcnt + 1).toNat = s.pixcnt.toNat + 1 := by
  have := npix_lt s
  rw [BitVec.toNat_add]
  exact Nat.mod_eq_of_lt (show s.pixcnt.toNat + 1 < 2 ^ 64 by omega)

theorem npix_of_sameHeader {s t : State} (h : SameHeader s t) : t.npix = s.npix := by
  obtain ⟨hw, hh, -⟩ := h
  rw [State.npix, State.npix, hw, hh]

/-- A pixel step counts its pixel, and is in the end-marker phase exactly when all are counted (41_encoder.md R98). -/
theorem PixelStepped.counted {pad : Phase} {s t : State} (h : PixelStepped pad s t) (lt : s.pixcnt.toNat < s.npix) :
    t.npix = s.npix ∧ t.pixcnt.toNat = s.pixcnt.toNat + 1 ∧
      (t.pixcnt.toNat = t.npix ∧ t.phase = pad ∨ t.pixcnt.toNat < t.npix ∧ t.phase = s.phase) := by
  have npix := npix_of_sameHeader h.header
  have count : t.pixcnt.toNat = s.pixcnt.toNat + 1 := by rw [h.pixcnt, toNat_pixcnt_succ lt]
  have phase := h.phase
  rw [toNat_pixcnt_succ lt] at phase
  refine ⟨npix, count, ?_⟩
  rw [npix, count]
  split at phase
  · exact .inl ⟨‹_›, phase⟩
  · exact .inr ⟨by omega, phase⟩

/-- After a header PIXCNT is 0, and the pixel phase is entered exactly when there are pixels (10_state.md R41). -/
theorem pixcntMatchesPhase_after_header {s : State} (zero : s.pixcnt = 0#64)
    (h : 0 < s.npix ∧ (s.phase = .ePix ∨ s.phase = .dPix) ∨ s.npix = 0 ∧ (s.phase = .ePad ∨ s.phase = .dPad)) :
    s.PixcntMatchesPhase := by
  have count : s.pixcnt.toNat = 0 := congrArg BitVec.toNat zero
  obtain ⟨pos, hp⟩ | ⟨none, hp⟩ := h
  · exact (pixcntMatchesPhase_during hp).mpr (count ▸ pos)
  · exact (pixcntMatchesPhase_after hp).mpr (count.trans none.symm)

theorem pixcntMatchesPhase_codec {s t : State} (hs : s.PixcntMatchesPhase) (h : CodecStepped s t) :
    t.PixcntMatchesPhase := by
  cases h with
  | writesHeader hp =>
    refine pixcntMatchesPhase_after_header ((pixcntMatchesPhase_before (.inl hp)).mp hs) ?_
    by_cases pos : s.npix > 0
    · exact .inl ⟨pos, .inl (if_pos pos)⟩
    · exact .inr ⟨Nat.eq_zero_of_not_pos pos, .inl (if_neg pos)⟩
  | writesEndMarker hp => exact pixcntMatchesPhase_at_rest (.inr rfl)
  | pixel direction h =>
    have phase : s.phase = .ePix ∨ s.phase = .dPix := direction.imp And.left And.left
    obtain ⟨-, -, ⟨all, ht⟩ | ⟨some, ht⟩⟩ := h.counted ((pixcntMatchesPhase_during phase).mp hs)
    · exact (pixcntMatchesPhase_after (direction.imp (ht.trans ·.2) (ht.trans ·.2))).mpr all
    · exact (pixcntMatchesPhase_during (ht ▸ phase)).mpr some
  | passesMagic hp hi =>
    exact (pixcntMatchesPhase_before (.inr (.inr rfl))).mpr ((pixcntMatchesPhase_before (.inr (.inl hp))).mp hs)
  | failsMagic hp hi hlen hm => exact pixcntMatchesPhase_at_rest (.inr rfl)
  | @readsHeader w h c cs front rest hp hi hlen =>
    refine pixcntMatchesPhase_after_header ((pixcntMatchesPhase_before (.inr (.inr hp))).mp hs) ?_
    by_cases pos : w.toNat * h.toNat > 0
    · exact .inl ⟨pos, .inr (if_pos pos)⟩
    · exact .inr ⟨Nat.eq_zero_of_not_pos pos, .inr (if_neg pos)⟩
  | passesEndMarker hp hi => exact pixcntMatchesPhase_at_rest (.inr rfl)
  | failsEndMarker hp hi hlen hm => exact pixcntMatchesPhase_at_rest (.inr rfl)

theorem pixcntMatchesPhase_kept : Kept State.PixcntMatchesPhase where
  codec := pixcntMatchesPhase_codec
  encode _ _ _ _ _ _ _ := (pixcntMatchesPhase_before (.inl rfl)).mpr rfl
  decode _ _ _ := (pixcntMatchesPhase_before (.inr (.inl rfl))).mpr rfl
  reset _ := pixcntMatchesPhase_at_rest (.inl rfl)
  streams _ _ _ h := h

end Sys2Proof.Machine

/-! SUPPORT. The other invariants, which speak of the command that runs (41_encoder.md R95, 42_decoder.md R116), and what no codec step
changes. -/

namespace Sys2Proof.Machine

/-! The streams, the header registers and the environment (10_state.md R25 to R29, 20_memory.md R61). -/

theorem CodecStepped.sameEnvironment {s t : State} (h : CodecStepped s t) : SameEnvironment s t := by
  cases h
  case pixel _ h => exact h.environment
  all_goals exact ⟨rfl, rfl, rfl, rfl⟩

theorem CodecStepped.streamsMoved {s t : State} (h : CodecStepped s t) : StreamsMoved s t := by
  have wrote : WroteBytes [] s s := ⟨(List.append_nil _).symm, (List.append_nil _).symm⟩
  cases h with
  | writesHeader hp => exact streamsMoved_of_read (front := []) rfl rfl (by decide) (length_encodeHeader _ _ _ _).le ⟨rfl, rfl⟩
  | writesEndMarker hp => exact streamsMoved_of_read (front := []) rfl rfl (by decide) (by decide) ⟨rfl, rfl⟩
  | pixel direction h => exact h.streams
  | passesMagic hp hi => exact streamsMoved_of_read hi rfl (by decide) (by decide) wrote
  | failsMagic hp hi hlen hm => exact streamsMoved_of_read hi rfl (hlen ▸ by decide) (by decide) wrote
  | readsHeader hp hi hlen => exact streamsMoved_of_read hi rfl hlen.le (by decide) wrote
  | passesEndMarker hp hi => exact streamsMoved_of_read hi rfl (by decide) (by decide) wrote
  | failsEndMarker hp hi hlen hm => exact streamsMoved_of_read hi rfl (hlen ▸ by decide) (by decide) wrote

/-- The header registers change in the decoder's header read alone (10_state.md R25 to R29). -/
theorem CodecStepped.sameHeader {s t : State} (h : CodecStepped s t) (hp : s.phase ≠ .dHdr) : SameHeader s t := by
  cases h
  case pixel _ h => exact h.header
  case readsHeader hd _ _ => exact absurd hd hp
  all_goals exact ⟨rfl, rfl, rfl, rfl, rfl⟩

theorem CodecStepped.outCh {s t : State} (h : CodecStepped s t) : t.outCh = s.outCh := by
  cases h
  case pixel _ h =>
    obtain ⟨-, -, -, -, outCh⟩ := h.header
    exact outCh
  all_goals rfl

/-- No codec step starts a command, or turns one into the other (10_state.md R41). -/
theorem CodecStepped.withinCommand {s t : State} (h : CodecStepped s t) :
    (t.phase.encoding = true → s.phase.encoding = true) ∧ (t.phase.decoding = true → s.phase.decoding = true) := by
  cases h with
  | writesHeader hp =>
    rw [hp]
    dsimp only
    split <;> decide
  | pixel direction h =>
    obtain ⟨enc, dec, -⟩ := h.sameCommand direction
    exact ⟨enc ▸ id, dec ▸ id⟩
  | passesMagic hp hi => exact ⟨nofun, fun _ => hp ▸ rfl⟩
  | readsHeader hp hi hlen =>
    rw [hp, loadHeader_phase]
    split <;> decide
  | writesEndMarker hp => exact ⟨nofun, nofun⟩
  | failsMagic hp hi hlen hm => exact ⟨nofun, nofun⟩
  | passesEndMarker hp hi => exact ⟨nofun, nofun⟩
  | failsEndMarker hp hi hlen hm => exact ⟨nofun, nofun⟩

theorem argumentsLegal_codec {s t : State} (hs : s.ArgumentsLegal) (h : CodecStepped s t) : t.ArgumentsLegal := by
  obtain ⟨enc, dec⟩ := h.withinCommand
  refine ⟨fun e => ?_, fun d => h.outCh ▸ hs.2 (dec d)⟩
  have notHeader : s.phase ≠ .dHdr := fun hp => by
    have := enc e
    rw [hp] at this
    cases this
  obtain ⟨-, -, channels, colorspace, -⟩ := h.sameHeader notHeader
  rw [channels, colorspace]
  exact hs.1 (enc e)

theorem argumentsLegal_kept : Kept State.ArgumentsLegal where
  codec := argumentsLegal_codec
  encode _ _ _ _ _ hc hcs := ⟨fun _ => ⟨hc, hcs⟩, nofun⟩
  decode _ _ hoc := ⟨nofun, fun _ => hoc⟩
  reset _ := ⟨nofun, nofun⟩
  streams _ _ _ h := h

theorem commandMatchesPhase_codec {s t : State} (hs : s.CommandMatchesPhase) (h : CodecStepped s t) :
    t.CommandMatchesPhase := by
  obtain ⟨enc, dec⟩ := h.withinCommand
  obtain ⟨-, -, -, command⟩ := h.sameEnvironment
  exact ⟨fun e => command.trans (hs.1 (enc e)), fun d => command.trans (hs.2 (dec d))⟩

theorem commandMatchesPhase_kept : Kept State.CommandMatchesPhase where
  codec := commandMatchesPhase_codec
  encode _ _ _ _ _ _ _ := ⟨fun _ => rfl, nofun⟩
  decode _ _ _ := ⟨nofun, fun _ => rfl⟩
  reset _ := ⟨nofun, nofun⟩
  streams _ _ _ h := h

theorem noPendingRun_of_phase {s : State} {p : Phase} (h : s.phase = p)
    (hp : ¬ (p = .eHdr ∨ p = .ePad ∨ p = .dMagic ∨ p = .dHdr) := by decide) : s.NoPendingRun :=
  fun e => absurd (h ▸ e) hp

/-- The last pixel of an ENCODE flushes its run; which pixel is the last is read from PIXCNT (41_encoder.md R100). -/
theorem noPendingRun_codec {s t : State} (hc : s.PixcntMatchesPhase) (hs : s.NoPendingRun) (h : CodecStepped s t) :
    t.NoPendingRun := by
  cases h with
  | writesHeader hp => exact fun _ => hs (.inl hp)
  | writesEndMarker hp => exact noPendingRun_of_phase (p := .done) rfl
  | pixel direction h =>
    have phase : s.phase = .ePix ∨ s.phase = .dPix := direction.imp And.left And.left
    have lt := (pixcntMatchesPhase_during phase).mp hc
    obtain ⟨npix, count, ⟨all, ht⟩ | ⟨-, ht⟩⟩ := h.counted lt
    · obtain ⟨-, rfl⟩ | ⟨-, rfl⟩ := direction
      · have last : s.lastPixel = true := decide_eq_true (by rw [← count, all, npix])
        exact fun _ => h.pending rfl last
      · exact noPendingRun_of_phase ht
    · exact phase.elim (fun hp => noPendingRun_of_phase (ht.trans hp)) (fun hp => noPendingRun_of_phase (ht.trans hp))
  | passesMagic hp hi => exact fun _ => hs (.inr (.inr (.inl hp)))
  | failsMagic hp hi hlen hm => exact noPendingRun_of_phase (p := .done) rfl
  | @readsHeader w h c cs front rest hp hi hlen =>
    by_cases pos : w.toNat * h.toNat > 0
    · exact noPendingRun_of_phase (p := .dPix) (if_pos pos)
    · exact noPendingRun_of_phase (p := .dPad) (if_neg pos)
  | passesEndMarker hp hi => exact noPendingRun_of_phase (p := .done) rfl
  | failsEndMarker hp hi hlen hm => exact noPendingRun_of_phase (p := .done) rfl

theorem noPendingRun_kept : Kept (fun s => s.PixcntMatchesPhase ∧ s.NoPendingRun) where
  codec hs h := ⟨pixcntMatchesPhase_codec hs.1 h, noPendingRun_codec hs.1 hs.2 h⟩
  encode w h c cs s hc hcs := ⟨pixcntMatchesPhase_kept.encode w h c cs s hc hcs, fun _ => rfl⟩
  decode oc s hoc := ⟨pixcntMatchesPhase_kept.decode oc s hoc, fun _ => rfl⟩
  reset s := ⟨pixcntMatchesPhase_kept.reset s, noPendingRun_of_phase (p := .idle) rfl⟩
  streams _ _ _ h := h

/-! The statements of the invariants. -/

/-- Settles O46: the codec counts no run to 62, and an accepted command starts with none. -/
theorem runStaysBelowSixtyTwo : Obligations.RunStaysBelowSixtyTwo := fun _ _ hs h => runInRange_kept.step hs h

/-- Settles O47: a slot is written with a pixel that hashes to it or not at all, and an accepted command clears them. -/
theorem slotsKeepTheirHash : Obligations.SlotsKeepTheirHash := fun _ _ hs h => slotsHoldTheirHash_kept.step hs h

/-- Settles O48: STATUS is one of five words, and none has both error bits. -/
theorem statusAgreesWithPhase : Obligations.StatusAgreesWithPhase := fun _ _ hs h =>
  have ht := statusMatchesPhase_kept.step hs h
  ⟨ht, not_both_errors ht⟩

/-- Settles O49: each of the seven is kept, the pending run together with PIXCNT, which says when the last pixel is reached. -/
theorem everyStepKeepsTheInvariants : Obligations.EveryStepKeepsTheInvariants := fun _ _ inv h =>
  have counted := noPendingRun_kept.step ⟨inv.pixcnt, inv.pending⟩ h
  { status := statusMatchesPhase_kept.step inv.status h
    run := runInRange_kept.step inv.run h
    slots := slotsHoldTheirHash_kept.step inv.slots h
    pixcnt := counted.1
    args := argumentsLegal_kept.step inv.args h
    pending := counted.2
    command := commandMatchesPhase_kept.step inv.command h }

/-- Settles O50: in IDLE an invariant asks for STATUS alone. -/
theorem resetMeetsTheInvariants : Obligations.ResetMeetsTheInvariants :=
  ⟨rfl, rfl,
    { status := ⟨fun _ => rfl, nofun, fun hi => absurd rfl hi⟩
      run := fun hi => absurd rfl hi
      slots := fun hi => absurd rfl hi
      pixcnt := pixcntMatchesPhase_at_rest (.inl rfl)
      args := ⟨nofun, nofun⟩
      pending := noPendingRun_of_phase (p := .idle) rfl
      command := ⟨nofun, nofun⟩ }⟩

/-- Settles O45: with no host move left the step is the codec's, and each of its cases moves the streams so. -/
theorem streamsMoveInOrder : Obligations.StreamsMoveInOrder := fun _ _ hh h =>
  (codecStep_stepped ((step_of_codec hh).symm.trans h)).streamsMoved

/-- The magic check leads to the header read or ends the command (42_decoder.md R117). -/
theorem CodecStepped.phase_of_dMagic {s t : State} (h : CodecStepped s t) (hp : s.phase = .dMagic) :
    t.phase = .dHdr ∨ t.phase = .done := by
  cases h
  case passesMagic => exact .inl rfl
  case failsMagic => exact .inr rfl
  case pixel direction _ => obtain ⟨e, -⟩ | ⟨e, -⟩ := direction <;> cases hp.symm.trans e
  all_goals cases hp.symm.trans ‹s.phase = _›

/-- The header read leads to the pixels or to the end marker (42_decoder.md R118). -/
theorem CodecStepped.phase_of_dHdr {s t : State} (h : CodecStepped s t) (hp : s.phase = .dHdr) :
    t.phase = .dPix ∨ t.phase = .dPad := by
  cases h
  case readsHeader => exact ite_eq_or_eq _ _ _
  case pixel direction _ => obtain ⟨e, -⟩ | ⟨e, -⟩ := direction <;> cases hp.symm.trans e
  all_goals cases hp.symm.trans ‹s.phase = _›

/-- WIDTH and HEIGHT change in the header read alone, which leaves D_HDR (42_decoder.md R118). -/
theorem CodecStepped.size_changes {s t : State} (h : CodecStepped s t) (hw : t.width ≠ s.width ∨ t.height ≠ s.height) :
    s.phase = .dHdr ∧ t.phase ≠ .dHdr := by
  have hp : s.phase = .dHdr := by
    by_contra hp
    obtain ⟨width, height, -⟩ := h.sameHeader hp
    exact hw.elim (absurd width) (absurd height)
  refine ⟨hp, ?_⟩
  obtain e | e := h.phase_of_dHdr hp <;> rw [e] <;> decide

/-- Settles O44: a move that changes them is an ENCODE, the reset event or a turn left to the codec, and the codec changes them in
the header read. -/
theorem onlyEncodeAndTheHeaderReadWriteWidthAndHeight : Obligations.OnlyEncodeAndTheHeaderReadWriteWidthAndHeight := by
  intro s t h hw
  have same : ¬ (s.width ≠ s.width ∨ s.height ≠ s.height) := not_or_intro (not_not_intro rfl) (not_not_intro rfl)
  obtain ⟨hh, h⟩ | ⟨m, ms, hh, h⟩ := step_next h
  · obtain ⟨hp, ht⟩ := (codecStep_stepped h).size_changes hw
    exact .inr (.inl ⟨hp, ht, .inl hh⟩)
  · obtain ⟨w, ht, c, cs, rfl, h⟩ | ⟨oc, rfl, h⟩ | ⟨bytes, rfl, rfl⟩ | ⟨n, rfl, rfl⟩ | ⟨rfl, rfl⟩ | ⟨rfl, h | rfl⟩ := hostTurn_next h
    · obtain ⟨-, -, -, rfl⟩ := acceptEncode_next h
      exact .inl ⟨w, ht, c, cs, ms, hh, rfl, rfl⟩
    · obtain ⟨-, -, rfl⟩ := acceptDecode_next h
      exact absurd hw same
    · exact absurd hw same
    · exact absurd hw same
    · exact .inr (.inr ⟨ms, hh⟩)
    · obtain ⟨hp, ht⟩ := (codecStep_stepped h).size_changes hw
      exact .inr (.inl ⟨hp, ht, .inr ⟨ms, hh⟩⟩)
    · exact absurd hw same

end Sys2Proof.Machine

/-! SUPPORT. The phase table (10_state.md R41), and the number of steps it allows a command (70_reset_and_hazards.md R160). -/

namespace Sys2Proof.Machine

/-- The rows of the phase table; the first three propositions say which of the host's moves the step is: one that keeps the phase,
an ENCODE, a DECODE. -/
def MovesByTheTable (keeps encodes decodes : Prop) (s t : State) : Prop :=
  t.phase = s.phase ∧ (keeps ∨ (s.phase = .ePix ∨ s.phase = .dPix) ∧ t.pixcnt.toNat < t.npix) ∨
  ((s.phase = .idle ∨ s.phase = .done) ∧ encodes ∧ t.phase = .eHdr) ∨
  (s.phase = .eHdr ∧ t.phase = .ePix ∧ 0 < s.npix) ∨
  (s.phase = .eHdr ∧ t.phase = .ePad ∧ s.npix = 0) ∨
  (s.phase = .ePix ∧ t.phase = .ePad ∧ t.pixcnt.toNat = t.npix) ∨
  (s.phase = .ePad ∧ t.phase = .done ∧ t.valid = true) ∨
  ((s.phase = .idle ∨ s.phase = .done) ∧ decodes ∧ t.phase = .dMagic) ∨
  (s.phase = .dMagic ∧ t.phase = .dHdr ∧ s.inp.take 4 = magicBytes) ∨
  (s.phase = .dMagic ∧ t.phase = .done ∧ s.inp.take 4 ≠ magicBytes ∧ t.valid = false ∧ t.errMagic = true) ∨
  (s.phase = .dHdr ∧ t.phase = .dPix ∧ 0 < t.npix) ∨
  (s.phase = .dHdr ∧ t.phase = .dPad ∧ t.npix = 0) ∨
  (s.phase = .dPix ∧ t.phase = .dPad ∧ t.pixcnt.toNat = t.npix) ∨
  (s.phase = .dPad ∧ t.phase = .done ∧ (t.valid = true ↔ s.inp.take 8 = endMarker) ∧
    (s.inp.take 8 ≠ endMarker → t.errPad = true))

theorem take_of_front {inp front rest : List Byte} {n : Nat} (hi : inp = front ++ rest) (hlen : front.length = n) :
    inp.take n = front := by
  rw [hi, ← hlen, List.take_left]

/-- The codec's rows (10_state.md R41). -/
theorem CodecStepped.movesByTheTable {keeps encodes decodes : Prop} {s t : State} (hs : s.PixcntMatchesPhase)
    (h : CodecStepped s t) : MovesByTheTable keeps encodes decodes s t := by
  rw [MovesByTheTable]
  cases h with
  | writesHeader hp =>
    by_cases pos : s.npix > 0
    · exact .inr (.inr (.inl ⟨hp, if_pos pos, pos⟩))
    · exact .inr (.inr (.inr (.inl ⟨hp, if_neg pos, Nat.eq_zero_of_not_pos pos⟩)))
  | writesEndMarker hp =>
    exact .inr (.inr (.inr (.inr (.inr (.inl ⟨hp, rfl, finishValid_status_getLsbD s validBit⟩)))))
  | pixel direction h =>
    have phase : s.phase = .ePix ∨ s.phase = .dPix := direction.imp And.left And.left
    obtain ⟨-, -, ⟨all, ht⟩ | ⟨some, ht⟩⟩ := h.counted ((pixcntMatchesPhase_during phase).mp hs)
    · obtain ⟨hp, rfl⟩ | ⟨hp, rfl⟩ := direction
      · exact .inr (.inr (.inr (.inr (.inl ⟨hp, ht, all⟩))))
      · exact .inr (.inr (.inr (.inr (.inr (.inr (.inr (.inr (.inr (.inr (.inr (.inl ⟨hp, ht, all⟩)))))))))))
    · exact .inl ⟨ht, .inr ⟨phase, some⟩⟩
  | passesMagic hp hi =>
    exact .inr (.inr (.inr (.inr (.inr (.inr (.inr (.inl ⟨hp, rfl, take_of_front hi rfl⟩)))))))
  | @failsMagic m rest hp hi hlen hm =>
    have bit := getLsbD_statusAfterError (errBit := errMagicBit) (by decide) s.status
    exact .inr (.inr (.inr (.inr (.inr (.inr (.inr (.inr (.inl
      ⟨hp, rfl, (take_of_front hi hlen).trans_ne hm, bit validBit, bit errMagicBit⟩))))))))
  | @readsHeader w h c cs front rest hp hi hlen =>
    by_cases pos : w.toNat * h.toNat > 0
    · exact .inr (.inr (.inr (.inr (.inr (.inr (.inr (.inr (.inr (.inl ⟨hp, if_pos pos, pos⟩)))))))))
    · exact .inr (.inr (.inr (.inr (.inr (.inr (.inr (.inr (.inr (.inr (.inl
        ⟨hp, if_neg pos, Nat.eq_zero_of_not_pos pos⟩))))))))))
  | passesEndMarker hp hi =>
    have marker := take_of_front hi rfl
    exact .inr (.inr (.inr (.inr (.inr (.inr (.inr (.inr (.inr (.inr (.inr (.inr
      ⟨hp, rfl, iff_of_true (finishValid_status_getLsbD s validBit) marker, absurd marker⟩)))))))))))
  | @failsEndMarker m rest hp hi hlen hm =>
    have bit := getLsbD_statusAfterError (errBit := errPadBit) (by decide) s.status
    have other : s.inp.take 8 ≠ endMarker := (take_of_front hi hlen).trans_ne hm
    exact .inr (.inr (.inr (.inr (.inr (.inr (.inr (.inr (.inr (.inr (.inr (.inr
      ⟨hp, rfl, iff_of_false (ne_true_of_eq_false (bit validBit)) other, fun _ => bit errPadBit⟩)))))))))))

/-- Settles O43: commands are accepted at rest, the host's other moves keep the phase, and the codec's steps are the table's rows. -/
theorem phasesMoveByTheTable : Obligations.PhasesMoveByTheTable := by
  intro s t hs h hreset
  change MovesByTheTable (∃ m ms, s.host = m :: ms ∧ ∀ w h c cs oc, m ≠ .encode w h c cs ∧ m ≠ .decode oc)
    (∃ w h c cs ms, s.host = .encode w h c cs :: ms) (∃ oc ms, s.host = .decode oc :: ms) s t
  obtain ⟨-, h⟩ | ⟨m, ms, hh, h⟩ := step_next h
  · exact (codecStep_stepped h).movesByTheTable hs
  · obtain ⟨w, ht, c, cs, rfl, h⟩ | ⟨oc, rfl, h⟩ | ⟨bytes, rfl, rfl⟩ | ⟨n, rfl, rfl⟩ | ⟨rfl, rfl⟩ | ⟨rfl, h | rfl⟩ := hostTurn_next h
    · obtain ⟨rest, -, -, rfl⟩ := acceptEncode_next h
      exact .inr (.inl ⟨(atRest_iff _).mp rest, ⟨w, ht, c, cs, ms, hh⟩, rfl⟩)
    · obtain ⟨rest, -, rfl⟩ := acceptDecode_next h
      exact .inr (.inr (.inr (.inr (.inr (.inr (.inl ⟨(atRest_iff _).mp rest, ⟨oc, ms, hh⟩, rfl⟩))))))
    · exact .inl ⟨rfl, .inl ⟨_, ms, hh, fun _ _ _ _ _ => ⟨nofun, nofun⟩⟩⟩
    · exact .inl ⟨rfl, .inl ⟨_, ms, hh, fun _ _ _ _ _ => ⟨nofun, nofun⟩⟩⟩
    · exact absurd (congrArg List.head? hh) hreset
    · exact (codecStep_stepped h).movesByTheTable (s := { s with host := ms }) hs
    · exact .inl ⟨rfl, .inl ⟨_, ms, hh, fun _ _ _ _ _ => ⟨nofun, nofun⟩⟩⟩

/-- How many codec steps are left to a command whose header has been written or read (70_reset_and_hazards.md R160). -/
def State.stepsLeft (s : State) : Nat :=
  match s.phase with
  | .eHdr => s.npix + 2
  | .ePix => s.npix - s.pixcnt.toNat + 1
  | .dPix => s.npix - s.pixcnt.toNat + 1
  | .ePad => 1
  | .dPad => 1
  | .idle => 0
  | .done => 0
  | .dMagic => 0
  | .dHdr => 0

/-- NPIX is the command's own: its header has been written or read (10_state.md R41). -/
def State.SizeKnown (s : State) : Prop := s.phase ≠ .dMagic ∧ s.phase ≠ .dHdr

theorem stepsLeft_eHdr {s : State} (h : s.phase = .eHdr) : s.stepsLeft = s.npix + 2 := by
  rw [State.stepsLeft, h]

theorem stepsLeft_during {s : State} (h : s.phase = .ePix ∨ s.phase = .dPix) :
    s.stepsLeft = s.npix - s.pixcnt.toNat + 1 := by
  obtain h | h := h <;> rw [State.stepsLeft, h]

theorem stepsLeft_after {s : State} (h : s.phase = .ePad ∨ s.phase = .dPad) : s.stepsLeft = 1 := by
  obtain h | h := h <;> rw [State.stepsLeft, h]

theorem stepsLeft_done {s : State} (h : s.phase = .done) : s.stepsLeft = 0 := by
  rw [State.stepsLeft, h]

theorem sizeKnown_of_phase {s : State} {p : Phase} (h : s.phase = p) (hp : p ≠ .dMagic ∧ p ≠ .dHdr := by decide) :
    s.SizeKnown := by
  rwa [State.SizeKnown, h]

/-- Each step of such a command takes one from the steps left at least, and keeps NPIX. -/
theorem CodecStepped.stepsLeft_lt {s t : State} (hs : s.PixcntMatchesPhase) (hk : s.SizeKnown) (h : CodecStepped s t) :
    t.stepsLeft < s.stepsLeft ∧ t.npix = s.npix ∧ t.SizeKnown := by
  cases h with
  | writesHeader hp =>
    rw [stepsLeft_eHdr hp]
    by_cases pos : s.npix > 0
    · refine ⟨?_, rfl, sizeKnown_of_phase (p := .ePix) (if_pos pos)⟩
      rw [stepsLeft_during (.inl (if_pos pos))]
      exact Nat.succ_lt_succ (Nat.lt_succ_of_le (Nat.sub_le _ _))
    · refine ⟨?_, rfl, sizeKnown_of_phase (p := .ePad) (if_neg pos)⟩
      rw [stepsLeft_after (.inl (if_neg pos))]
      exact Nat.succ_lt_succ (Nat.succ_pos _)
  | writesEndMarker hp =>
    rw [stepsLeft_after (.inl hp), stepsLeft_done rfl]
    exact ⟨Nat.one_pos, rfl, sizeKnown_of_phase (p := .done) rfl⟩
  | pixel direction h =>
    have phase : s.phase = .ePix ∨ s.phase = .dPix := direction.imp And.left And.left
    have lt := (pixcntMatchesPhase_during phase).mp hs
    obtain ⟨npix, count, ⟨-, ht⟩ | ⟨-, ht⟩⟩ := h.counted lt
    · rw [stepsLeft_during phase, stepsLeft_after (direction.imp (ht.trans ·.2) (ht.trans ·.2))]
      refine ⟨by omega, npix, ?_⟩
      exact direction.elim (fun d => sizeKnown_of_phase (ht.trans d.2)) (fun d => sizeKnown_of_phase (ht.trans d.2))
    · rw [stepsLeft_during phase, stepsLeft_during (ht ▸ phase)]
      exact ⟨by omega, npix, phase.elim (sizeKnown_of_phase <| ht.trans ·) (sizeKnown_of_phase <| ht.trans ·)⟩
  | passesMagic hp hi => exact absurd hp hk.1
  | failsMagic hp hi hlen hm => exact absurd hp hk.1
  | readsHeader hp hi hlen => exact absurd hp hk.2
  | passesEndMarker hp hi =>
    rw [stepsLeft_after (.inr hp), stepsLeft_done rfl]
    exact ⟨Nat.one_pos, rfl, sizeKnown_of_phase (p := .done) rfl⟩
  | failsEndMarker hp hi hlen hm =>
    rw [stepsLeft_after (.inr hp), stepsLeft_done rfl]
    exact ⟨Nat.one_pos, rfl, sizeKnown_of_phase (p := .done) rfl⟩

/-- With no host move left the first step of a run is the codec's, and leaves none. -/
theorem run_succ_codec {n : Nat} {s t : State} (hh : s.host = []) (h : Host.Core.run Sys2Proof.core (n + 1) s = .next t) :
    ∃ u, CodecStepped s u ∧ u.host = [] ∧ Host.Core.run Sys2Proof.core n u = .next t := by
  obtain ⟨u, hu, h⟩ := run_succ_next h
  have stepped := codecStep_stepped ((step_of_codec hh).symm.trans hu)
  obtain ⟨host, -⟩ := stepped.sameEnvironment
  exact ⟨u, stepped, host.trans hh, h⟩

theorem run_le_stepsLeft {n : Nat} {s t : State} (hh : s.host = []) (hs : s.PixcntMatchesPhase) (hk : s.SizeKnown)
    (h : Host.Core.run Sys2Proof.core n s = .next t) : n ≤ s.stepsLeft ∧ t.npix = s.npix := by
  induction n generalizing s with
  | zero =>
    cases h
    exact ⟨Nat.zero_le _, rfl⟩
  | succ n ih =>
    obtain ⟨u, stepped, hu, h⟩ := run_succ_codec hh h
    obtain ⟨lt, npix, known⟩ := stepped.stepsLeft_lt hs hk
    obtain ⟨le, same⟩ := ih hu (pixcntMatchesPhase_codec hs stepped) known h
    exact ⟨Nat.lt_of_le_of_lt le lt, same.trans npix⟩

/-- The decoder's header read leaves NPIX + 1 steps at most (42_decoder.md R118). -/
theorem CodecStepped.stepsLeft_of_dHdr {s t : State} (h : CodecStepped s t) (hp : s.phase = .dHdr) :
    t.SizeKnown ∧ t.stepsLeft ≤ t.npix + 1 := by
  obtain ht | ht := h.phase_of_dHdr hp
  · rw [stepsLeft_during (.inr ht)]
    exact ⟨sizeKnown_of_phase ht, Nat.succ_le_succ (Nat.sub_le _ _)⟩
  · rw [stepsLeft_after (.inr ht)]
    exact ⟨sizeKnown_of_phase ht, Nat.succ_le_succ (Nat.zero_le _)⟩

theorem run_le_of_dHdr {n : Nat} {s t : State} (hh : s.host = []) (hs : s.PixcntMatchesPhase) (hp : s.phase = .dHdr)
    (h : Host.Core.run Sys2Proof.core n s = .next t) : n ≤ t.npix + 2 := by
  cases n with
  | zero => exact Nat.zero_le _
  | succ n =>
    obtain ⟨u, stepped, hu, h⟩ := run_succ_codec hh h
    obtain ⟨known, bound⟩ := stepped.stepsLeft_of_dHdr hp
    obtain ⟨le, same⟩ := run_le_stepsLeft hu (pixcntMatchesPhase_codec hs stepped) known h
    rw [same]
    exact Nat.succ_le_succ (le.trans bound)

theorem run_le_of_dMagic {n : Nat} {s t : State} (hh : s.host = []) (hs : s.PixcntMatchesPhase) (hp : s.phase = .dMagic)
    (h : Host.Core.run Sys2Proof.core n s = .next t) : n ≤ t.npix + 3 := by
  cases n with
  | zero => exact Nat.zero_le _
  | succ n =>
    obtain ⟨u, stepped, hu, h⟩ := run_succ_codec hh h
    have counted := pixcntMatchesPhase_codec hs stepped
    obtain header | done := stepped.phase_of_dMagic hp
    · exact Nat.succ_le_succ (run_le_of_dHdr hu counted header h)
    · obtain ⟨le, -⟩ := run_le_stepsLeft hu counted (sizeKnown_of_phase done) h
      rw [stepsLeft_done done] at le
      omega

/-- Settles O58: an ENCODE starts with NPIX + 2 steps left; a DECODE learns NPIX in its second step, with NPIX + 1 left. -/
theorem commandsTakeBoundedSteps : Obligations.CommandsTakeBoundedSteps := by
  refine fun s t n hh hs h => ⟨fun hp => ?encode, fun hp => run_le_of_dMagic hh hs hp h⟩
  obtain ⟨le, same⟩ := run_le_stepsLeft hh hs (sizeKnown_of_phase hp) h
  rwa [same, ← stepsLeft_eHdr hp]

end Sys2Proof.Machine

/-! SUPPORT. The decoder's operations and runs (42_decoder.md R120, R126, R127, R130), the operation tag_mux selects as the decoder
meets it (41_encoder.md R103), and the decoder's independence of DELTA_MODE (70_reset_and_hazards.md R154). -/

namespace Sys2Proof.Machine

/-- Settles O14: a RUN emits PREV from a state whose CACHE is kept, and every other operation completes by the write. -/
theorem everyOperationButRunWritesTheCache : Obligations.EveryOperationButRunWritesTheCache := by
  intro i s t h
  cases i
  case run k =>
    obtain ⟨-, rfl⟩ := emitPixel_next h
    exact ⟨fun notRun => absurd rfl (notRun k), fun _ => rfl⟩
  all_goals
    obtain ⟨-, rfl⟩ := emitPixel_next h
    exact ⟨fun _ => cacheHolds_iff.mpr rfl, fun ⟨_, isRun⟩ => nomatch isRun⟩

/-! The operation tag_mux selects. -/

theorem deltaOperation_wellFormed (dr dg db : Int) (px : Pixel) : (deltaOperation dr dg db px).WellFormed := by
  rw [deltaOperation]
  split
  · exact ‹fitsDiff dr dg db = true›
  · split
    · exact ‹fitsLuma dr dg db = true›
    · rfl

theorem tagMux_wellFormed (m : DeltaMode) (px prev : Pixel) (cache : Cache) : (tagMux m px prev cache).WellFormed := by
  rw [tagMux]
  split
  · rfl
  · split
    · rfl
    · exact deltaOperation_wellFormed _ _ _ _

/-- Adding the encoder's deltas to PREV gives the pixel back when the alpha is unchanged (41_encoder.md R106). -/
theorem addDeltas_channelDelta (m : DeltaMode) {px prev : Pixel} (ha : px.a = prev.a) :
    addDeltas prev (channelDelta m px.r prev.r) (channelDelta m px.g prev.g) (channelDelta m px.b prev.b) = px := by
  rw [addDeltas, addDelta_channelDelta, addDelta_channelDelta, addDelta_channelDelta, ← ha]

theorem exec_deltaOperation {dr dg db : Int} {px : Pixel} {s : State} (hd : addDeltas s.prev dr dg db = px) :
    exec (deltaOperation dr dg db px) s = completeOperation px s := by
  have alpha : px.a = s.prev.a := hd ▸ rfl
  rw [deltaOperation]
  split
  · exact congrArg (completeOperation · s) hd
  · split
    · have exact_deltas : addDeltas s.prev (dg + (dr - dg)) dg (dg + (db - dg)) = px := by
        rw [add_sub_cancel, add_sub_cancel, hd]
      exact congrArg (completeOperation · s) exact_deltas
    · exact congrArg (fun a => completeOperation ⟨px.r, px.g, px.b, a⟩ s) alpha.symm

/-- Whatever tag_mux selects for a pixel, a decoder with the same PREV and CACHE completes it with that pixel (42_decoder.md R127). -/
theorem exec_tagMux (m : DeltaMode) (px : Pixel) (s : State) :
    exec (tagMux m px s.prev s.cache) s = completeOperation px s := by
  by_cases hit : cacheRead s.cache (pixelHash px) = px
  · rw [tagMux_of_hit hit]
    exact congrArg (completeOperation · s) hit
  · by_cases alpha : px.a = s.prev.a
    · rw [tagMux_of_deltas hit alpha rfl]
      exact exec_deltaOperation (addDeltas_channelDelta m alpha)
    · rw [tagMux_of_changed_alpha hit alpha]
      rfl

/-- Settles O53: the operation completes with the pixel, and completing writes the slot as the encoder does. -/
theorem selectedOperationRebuildsThePixel : Obligations.SelectedOperationRebuildsThePixel := by
  refine fun m px s he => ⟨tagMux_wellFormed m px s.prev s.cache, ?_⟩
  rw [exec_tagMux]
  obtain ⟨t, ht, rfl, hcache, hrun, hframe⟩ := completeOperation_decodes he px
  exact ⟨t, ht, rfl, (cacheHolds_iff.mp hcache).trans (tagMuxCache_eq _ _).symm, hrun, hframe⟩

/-! Runs. -/

theorem SameHeader.trans {s t u : State} (h : SameHeader s t) (h' : SameHeader t u) : SameHeader s u := by
  obtain ⟨w, ht, c, cs, oc⟩ := h
  obtain ⟨w', ht', c', cs', oc'⟩ := h'
  exact ⟨w'.trans w, ht'.trans ht, c'.trans c, cs'.trans cs, oc'.trans oc⟩

theorem SameEnvironment.trans {s t u : State} (h : SameEnvironment s t) (h' : SameEnvironment t u) :
    SameEnvironment s u := by
  obtain ⟨host, cfg, resets, command⟩ := h
  obtain ⟨host', cfg', resets', command'⟩ := h'
  exact ⟨host'.trans host, cfg'.trans cfg, resets'.trans resets, command'.trans command⟩

theorem WroteBytes.trans {b b' : List Byte} {s t u : State} (h : WroteBytes b s t) (h' : WroteBytes b' t u) :
    WroteBytes (b ++ b') s u := by
  obtain ⟨out, written⟩ := h
  obtain ⟨out', written'⟩ := h'
  exact ⟨by rw [out', out, List.append_assoc], by rw [written', written, List.append_assoc]⟩

/-- A stretch of n decoder pixel steps that all emit PREV, as seen from its first state (42_decoder.md R120, R126). -/
structure EmittedPrev (n : Nat) (s t : State) : Prop where
  prev : t.prev = s.prev
  cache : t.cache = s.cache
  inp : t.inp = s.inp
  wrote : WroteBytes (List.replicate n (rawPixel s.outCh s.prev)).flatten s t
  pixcnt : t.pixcnt.toNat = s.pixcnt.toNat + n
  phase : t.phase = if s.pixcnt.toNat + n = s.npix then .dPad else .dPix
  header : SameHeader s t
  environment : SameEnvironment s t

theorem emittedPrev_of_decodedPixel {s t : State} (hp : s.phase = .dPix) (lt : s.pixcnt.toNat < s.npix)
    (hprev : t.prev = s.prev) (hcache : t.cache = s.cache) (h : DecodedPixel s t) : EmittedPrev 1 s t := by
  obtain ⟨hw, hcnt, hphase, hi, -, hheader, henv⟩ := h
  rw [toNat_pixcnt_succ lt, hp] at hphase
  refine ⟨hprev, hcache, hi, ?_, by rw [hcnt, toNat_pixcnt_succ lt], hphase, hheader, henv⟩
  rw [← hprev]
  simpa using hw

theorem EmittedPrev.step {n : Nat} {s t u : State} (h : EmittedPrev n s t) (h' : EmittedPrev 1 t u) :
    EmittedPrev (n + 1) s u := by
  have count : t.pixcnt.toNat + 1 = s.pixcnt.toNat + (n + 1) := by rw [h.pixcnt, Nat.add_assoc]
  obtain ⟨-, -, -, -, outCh⟩ := h.header
  refine ⟨h'.prev.trans h.prev, h'.cache.trans h.cache, h'.inp.trans h.inp, ?wrote, h'.pixcnt.trans count, ?phase,
    h.header.trans h'.header, h.environment.trans h'.environment⟩
  case wrote =>
    have one := h'.wrote
    rw [outCh, h.prev] at one
    rw [List.replicate_add, List.flatten_append]
    exact h.wrote.trans one
  case phase => rw [h'.phase, count, npix_of_sameHeader h.header]

theorem canEmit_of_unbounded {s : State} (hoc : s.outCh = 3#8 ∨ s.outCh = 4#8) (hcap : s.cfg.outCap = none) : CanEmit s :=
  ⟨hoc, accepts_of_unbounded s _ hcap⟩

/-- After j pixels of a run, the n repeats still owed are n steps (42_decoder.md R120). -/
theorem owedRepeats_run {j n : Nat} {s u : State} (he : EmittedPrev j s u) (hrun : u.run.toNat = n) (hh : s.host = [])
    (hoc : s.outCh = 3#8 ∨ s.outCh = 4#8) (hcap : s.cfg.outCap = none) (left : s.pixcnt.toNat + (j + n) ≤ s.npix) :
    ∃ t, Host.Core.run Sys2Proof.core n u = .next t ∧ t.run = 0 ∧ EmittedPrev (j + n) s t := by
  induction n generalizing j u with
  | zero => exact ⟨u, rfl, BitVec.eq_of_toNat_eq hrun, he⟩
  | succ n ih =>
    obtain ⟨-, -, -, -, outCh⟩ := he.header
    obtain ⟨host, cfg, -, -⟩ := he.environment
    have phase : u.phase = .dPix := he.phase.trans (if_neg (by omega))
    have lt : u.pixcnt.toNat < u.npix := by
      rw [npix_of_sameHeader he.header, he.pixcnt]
      omega
    obtain ⟨v, hv, vrun, vprev, vcache, vframe⟩ := runRepeatReadsNothing u phase (host.trans hh) (hrun ▸ Nat.succ_pos n)
      (canEmit_of_unbounded (outCh ▸ hoc) (cfg ▸ hcap))
    have emitted := he.step (emittedPrev_of_decodedPixel phase lt vprev vcache vframe)
    obtain ⟨t, ht, trun, tframe⟩ := ih emitted (by rw [vrun, hrun]; rfl) (by omega)
    rw [show j + 1 + n = j + (n + 1) by omega] at tframe
    exact ⟨t, (run_succ_of_next hv).trans ht, trun, tframe⟩

/-- The step that reads a RUN of k pixels: it consumes the operation's byte, emits PREV and owes k - 1 repeats
(42_decoder.md R126). -/
theorem step_of_run {s : State} {k : Nat} {rest : List Byte} (wf : (Instr.run k).WellFormed) (hp : s.phase = .dPix)
    (hh : s.host = []) (hr : s.run = 0) (he : CanEmit s) (hi : s.inp = encode (.run k) ++ rest) :
    ∃ t, step s = .next t ∧ t.run.toNat = k - 1 ∧ t.prev = s.prev ∧ t.cache = s.cache ∧
      DecodedPixel { s with inp := rest } t := by
  obtain ⟨lo, hi'⟩ := wellFormed_run_iff.mp wf
  have read : decode s.inp = .op (.run k) rest := hi ▸ decodeOfEncodeGivesTheOperation _ _ wf
  obtain ⟨-, runs, -⟩ := stepRunsTheDecodedOperation s _ _ hp hr read
  obtain ⟨t, ht, h⟩ := runSetsTheCounterAndEmitsPrev.2 (k - 1) { s with inp := rest } (by omega) he
  rw [Nat.sub_add_cancel lo] at ht
  exact ⟨t, (runs hh).trans ht, h⟩

/-- Settles O17: the first step reads the operation and the k - 1 others are the repeats it owes. -/
theorem runOperationCoversItsPixels : Obligations.RunOperationCoversItsPixels := by
  intro s k rest wf hp hh hr hoc hcap hi left
  obtain ⟨lo, -⟩ := wellFormed_run_iff.mp wf
  have lt : s.pixcnt.toNat < s.npix := by omega
  obtain ⟨u, hu, urun, uprev, ucache, uframe⟩ := step_of_run wf hp hh hr (canEmit_of_unbounded hoc hcap) hi
  have first : EmittedPrev 1 { s with inp := rest } u := emittedPrev_of_decodedPixel hp lt uprev ucache uframe
  obtain ⟨t, ht, trun, tframe⟩ := owedRepeats_run first urun hh hoc hcap
    (show s.pixcnt.toNat + (1 + (k - 1)) ≤ s.npix by omega)
  have run : Host.Core.run Sys2Proof.core (k - 1 + 1) s = .next t := (run_succ_of_next hu).trans ht
  rw [Nat.sub_add_cancel lo] at run
  rw [Nat.add_sub_cancel' lo] at tframe
  exact ⟨t, run, tframe.inp, trun, tframe.prev, tframe.cache, tframe.wrote, tframe.pixcnt, tframe.phase⟩

/-- Settles O18: the pixel is the last, so the end marker is read next, and its check does not look at RUN. -/
theorem residualRunIsDropped : Obligations.ResidualRunIsDropped := by
  intro s k rest wf hp hh hr hst he last hi
  rw [List.append_assoc] at hi
  obtain ⟨u, hu, urun, uprev, ucache, uframe⟩ := step_of_run wf hp hh hr he hi
  have first : EmittedPrev 1 { s with inp := endMarker ++ rest } u :=
    emittedPrev_of_decodedPixel hp (show s.pixcnt.toNat < s.npix by omega) uprev ucache uframe
  obtain ⟨-, -, -, -, ustatus, -⟩ := uframe
  obtain ⟨host, -⟩ := first.environment
  obtain ⟨t, ht, phase, -, -, -, -, tout, twritten, -, -, -, trun, -, -, valid, -⟩ :=
    endMarkerDecidesValidity u endMarker rest (first.phase.trans (if_pos last)) (host.trans hh) first.inp rfl
  obtain ⟨-, -, tstatus⟩ := valid rfl
  obtain ⟨out, written⟩ := first.wrote
  have two : Host.Core.run Sys2Proof.core 2 s = .next t := (run_succ_of_next hu).trans (run_succ_of_next ht)
  exact ⟨t, two, phase, tstatus (ustatus.trans hst),
    ⟨tout.trans (by simpa using out), twritten.trans (by simpa using written)⟩, (congrArg BitVec.toNat trun).trans urun⟩

/-! DELTA_MODE. -/

/-- The state with another DELTA_MODE (70_reset_and_hazards.md R154). -/
def State.withDeltaMode (m : DeltaMode) (s : State) : State := { s with cfg := { s.cfg with deltaMode := m } }

theorem emitPixel_withDeltaMode {px : Pixel} {s t : State} (m : DeltaMode) (h : emitPixel px s = .next t) :
    emitPixel px (s.withDeltaMode m) = .next (t.withDeltaMode m) := by
  obtain ⟨ha, rfl⟩ := emitPixel_next h
  exact emitPixel_of_accepts px (s.withDeltaMode m) ha

theorem exec_withDeltaMode {i : Instr} {s t : State} (m : DeltaMode) (h : exec i s = .next t) :
    exec i (s.withDeltaMode m) = .next (t.withDeltaMode m) := by
  cases i <;> exact emitPixel_withDeltaMode m h

theorem decPixel_withDeltaMode {s t : State} (m : DeltaMode) (h : decPixel s = .next t) :
    decPixel (s.withDeltaMode m) = .next (t.withDeltaMode m) := by
  obtain ⟨hr, h⟩ | ⟨hr, i, rest, hd, h⟩ := decPixel_next h
  · have isRepeat : decPixel (s.withDeltaMode m) = runRepeat (s.withDeltaMode m) := if_pos hr
    exact isRepeat.trans (emitPixel_withDeltaMode m h)
  · exact (decPixel_of_op (s := s.withDeltaMode m) hr hd).trans (exec_withDeltaMode m h)

theorem decMagic_withDeltaMode {s t : State} (m : DeltaMode) (h : decMagic s = .next t) :
    decMagic (s.withDeltaMode m) = .next (t.withDeltaMode m) := by
  obtain ⟨front, rest, hi, hlen, outcome⟩ := decMagic_next h
  rw [decMagic_eq (s := s.withDeltaMode m) hi hlen]
  obtain ⟨good, rfl⟩ | ⟨bad, rfl⟩ := outcome
  · exact if_pos good
  · exact if_neg bad

theorem decHeader_withDeltaMode {s t : State} (m : DeltaMode) (h : decHeader s = .next t) :
    decHeader (s.withDeltaMode m) = .next (t.withDeltaMode m) := by
  obtain ⟨w0, w1, w2, w3, h0, h1, h2, h3, c, cs, rest, hi, rfl⟩ := decHeader_next h
  have hi' : (s.withDeltaMode m).inp = w0 :: w1 :: w2 :: w3 :: h0 :: h1 :: h2 :: h3 :: c :: cs :: rest := hi
  simp only [decHeader, hi']
  rfl

theorem decPad_withDeltaMode {s t : State} (m : DeltaMode) (h : decPad s = .next t) :
    decPad (s.withDeltaMode m) = .next (t.withDeltaMode m) := by
  obtain ⟨front, rest, hi, hlen, -⟩ := decPad_next h
  rw [decPad_eq hi hlen] at h
  cases h
  exact decPad_eq (s := s.withDeltaMode m) hi hlen

/-- Settles O52: none of the decoder's four steps reads DELTA_MODE. -/
theorem decoderIgnoresDeltaMode : Obligations.DecoderIgnoresDeltaMode := by
  intro s t m hh hdec h
  rw [step_of_codec hh] at h
  refine (step_of_codec (s := s.withDeltaMode m) hh).trans ?_
  obtain ⟨hp, -⟩ | ⟨hp, -⟩ | ⟨hp, -⟩ | ⟨hp, h⟩ | ⟨hp, h⟩ | ⟨hp, h⟩ | ⟨hp, h⟩ := codecStep_next h
  · exact absurd hdec (by rw [hp]; decide)
  · exact absurd hdec (by rw [hp]; decide)
  · exact absurd hdec (by rw [hp]; decide)
  · exact (codecStep_dMagic (s := s.withDeltaMode m) hp).trans (decMagic_withDeltaMode m h)
  · exact (codecStep_dHdr (s := s.withDeltaMode m) hp).trans (decHeader_withDeltaMode m h)
  · exact (codecStep_dPix (s := s.withDeltaMode m) hp).trans (decPixel_withDeltaMode m h)
  · exact (codecStep_dPad (s := s.withDeltaMode m) hp).trans (decPad_withDeltaMode m h)

end Sys2Proof.Machine

/-! SUPPORT. The operations of a whole image as a list (41_encoder.md R98 for pixel after pixel): they are well formed, cover the
pixels (R114), and are runs alone for a uniform image. -/

namespace Sys2Proof.Machine

/-- The operations the encoder writes for these pixels, the last of them the image's last. -/
def imageOps (m : DeltaMode) : List Pixel → Registers → List Instr
  | [], _ => []
  | px :: todo, q => q.ops m todo.isEmpty px ++ imageOps m todo (q.next todo.isEmpty px)

/-- The registers after the first k of these pixels. -/
def Registers.after : Nat → List Pixel → Registers → Registers
  | 0, _, q => q
  | _ + 1, [], q => q
  | k + 1, px :: todo, q => after k todo (q.next todo.isEmpty px)

/-- The registers at a command start (10_state.md R45). -/
def startRegisters (init : Pixel) : Registers := ⟨init, 0, clearedCache⟩

theorem Registers.next_run_of_isEmpty {todo : List Pixel} {px : Pixel} {q : Registers} (h : todo = []) :
    (q.next todo.isEmpty px).run = 0 := by
  rw [h]
  exact next_run_of_last

/-- No run is pending after the last pixel (41_encoder.md R100, R101). -/
theorem Registers.after_all_run {todo : List Pixel} {q : Registers} (h : todo = [] → q.run = 0) :
    (q.after todo.length todo).run = 0 := by
  induction todo generalizing q with
  | nil => exact h rfl
  | cons px todo ih => exact ih next_run_of_isEmpty

/-! Covered pixels (30_encoding.md R66). -/

@[simp] theorem coveredPixels_run (k : Nat) : coveredPixels (.run k) = k := rfl

@[simp] theorem coveredPixels_tagMux (m : DeltaMode) (px prev : Pixel) (cache : Cache) :
    coveredPixels (tagMux m px prev cache) = 1 := by
  rw [tagMux]
  split
  · rfl
  · split
    · rfl
    · rw [deltaOperation]
      split
      · rfl
      · split <;> rfl

theorem Registers.ops_wellFormed {m : DeltaMode} {last : Bool} {px : Pixel} {q : Registers} (hr : q.run.toNat ≤ 61) :
    ∀ i ∈ q.ops m last px, i.WellFormed := by
  have counted := toNat_count_succ hr
  by_cases he : px = q.prev
  · cases hf : q.runEnds last
    · rw [ops_of_extends m he hf]
      nofun
    · rw [ops_of_ends m he hf, List.forall_mem_singleton, wellFormed_run_iff]
      omega
  · rw [ops_of_different m he, List.forall_mem_append, List.forall_mem_singleton]
    refine ⟨?_, tagMux_wellFormed m px q.prev q.cache⟩
    split
    · rw [List.forall_mem_singleton, wellFormed_run_iff]
      omega
    · nofun

/-- Pixels covered, and pixels still pending, are all pixels seen (41_encoder.md R99 to R101). -/
theorem Registers.covered_ops {m : DeltaMode} {last : Bool} {px : Pixel} {q : Registers} (hr : q.run.toNat ≤ 61) :
    ((q.ops m last px).map coveredPixels).sum + (q.next last px).run.toNat = q.run.toNat + 1 := by
  have counted := toNat_count_succ hr
  by_cases he : px = q.prev
  · cases hf : q.runEnds last
    · rw [ops_of_extends m he hf, next_of_extends he hf]
      simpa using counted
    · rw [ops_of_ends m he hf, next_of_ends he hf]
      simpa using counted
  · rw [ops_of_different m he, next_of_different he]
    split
    · simp
    · have zero : q.run.toNat = 0 := by omega
      simp [zero]

theorem imageOps_wellFormed {m : DeltaMode} {todo : List Pixel} {q : Registers} (hr : q.run.toNat ≤ 61) :
    ∀ i ∈ imageOps m todo q, i.WellFormed := by
  induction todo generalizing q with
  | nil => nofun
  | cons px todo ih =>
    rw [imageOps, List.forall_mem_append]
    exact ⟨Registers.ops_wellFormed hr, ih (Registers.next_run_le hr)⟩

/-- The operations of an image cover its pixels, and those pending before it (41_encoder.md R114). -/
theorem covered_imageOps {m : DeltaMode} {todo : List Pixel} {q : Registers} (hr : q.run.toNat ≤ 61)
    (h : todo = [] → q.run = 0) : ((imageOps m todo q).map coveredPixels).sum = q.run.toNat + todo.length := by
  induction todo generalizing q with
  | nil => rw [h rfl]; rfl
  | cons px todo ih =>
    have one := Registers.covered_ops (m := m) (last := todo.isEmpty) (px := px) hr
    have rest := ih (Registers.next_run_le (last := todo.isEmpty) (px := px) hr) Registers.next_run_of_isEmpty
    rw [imageOps, List.map_append, List.sum_append, rest, List.length_cons]
    omega

/-! Lengths (41_encoder.md R114(e)). -/

/-- An operation has a byte for every 62 pixels it covers, and at most 5 for each. -/
theorem length_encode_by_covered {i : Instr} (h : i.WellFormed) :
    coveredPixels i ≤ 62 * (encode i).length ∧ (encode i).length ≤ 5 * coveredPixels i := by
  cases i
  case run k =>
    obtain ⟨lo, hi⟩ := wellFormed_run_iff.mp h
    rw [length_encode]
    simp only [Instr.tag, TagClass.length, coveredPixels]
    omega
  all_goals
    rw [length_encode]
    exact ⟨Nat.le_of_ble_eq_true rfl, Nat.le_of_ble_eq_true rfl⟩

theorem length_flatMap_encode_by_covered {ops : List Instr} (h : ∀ i ∈ ops, i.WellFormed) :
    (ops.map coveredPixels).sum ≤ 62 * (ops.flatMap encode).length ∧
      (ops.flatMap encode).length ≤ 5 * (ops.map coveredPixels).sum := by
  induction ops with
  | nil => exact ⟨Nat.le_refl 0, Nat.le_refl 0⟩
  | cons i ops ih =>
    obtain ⟨wf, rest⟩ := List.forall_mem_cons.mp h
    have one := length_encode_by_covered wf
    have more := ih rest
    simp only [List.map_cons, List.sum_cons, List.flatMap_cons, List.length_append]
    omega

/-! A uniform image (41_encoder.md R114(f)). -/

/-- The bytes of k repeats of PREV: full RUNs, and one for the remainder. -/
def runBytes (k : Nat) : List Byte :=
  List.replicate (k / 62) 0xfd#8 ++ if k % 62 = 0 then [] else [BitVec.ofNat 8 (0xc0 + (k % 62 - 1))]

theorem runBytes_add_full (k : Nat) : runBytes (62 + k) = encode (.run 62) ++ runBytes k := by
  rw [runBytes, Nat.add_div_left _ (by decide), Nat.add_mod_left, List.replicate_succ]
  rfl

theorem runBytes_of_lt {k : Nat} (lo : 1 ≤ k) (hi : k < 62) : runBytes k = encode (.run k) := by
  rw [runBytes, Nat.div_eq_of_lt hi, Nat.mod_eq_of_lt hi, if_neg (by omega), encode_run_eq lo (by omega)]
  rfl

theorem imageOps_uniform {m : DeltaMode} {p : Pixel} {n : Nat} {run : BitVec 6} {cache : Cache} (hr : run.toNat ≤ 61)
    (h : n = 0 → run = 0) :
    (imageOps m (List.replicate n p) ⟨p, run, cache⟩).flatMap encode = runBytes (run.toNat + n) := by
  induction n generalizing run with
  | zero => rw [h rfl]; rfl
  | succ n ih =>
    have counted := toNat_count_succ hr
    have isLast : (List.replicate n p).isEmpty = decide (n = 0) := by cases n <;> rfl
    rw [List.replicate_succ, imageOps, isLast, List.flatMap_append]
    cases hf : Registers.runEnds (decide (n = 0)) ⟨p, run, cache⟩
    · obtain ⟨notFull, more⟩ := Registers.runEnds_eq_false_iff.mp hf
      have notFull : run.toNat + 1 ≠ 62 := counted ▸ notFull
      have more : n ≠ 0 := of_decide_eq_false more
      rw [Registers.ops_of_extends m rfl hf, Registers.next_of_extends rfl hf, List.flatMap_nil, List.nil_append,
        ih (run := run + 1) (by omega) (absurd · more), counted]
      exact congrArg runBytes (by omega)
    · have ends : run.toNat + 1 = 62 ∨ n = 0 :=
        (Registers.runEnds_iff.mp hf).imp counted.symm.trans of_decide_eq_true
      rw [Registers.ops_of_ends m rfl hf, Registers.next_of_ends rfl hf, ih (Nat.zero_le _) (fun _ => rfl), counted]
      rw [List.flatMap_singleton]
      by_cases full : run.toNat + 1 = 62
      · rw [show run.toNat + (n + 1) = 62 + n by omega, full, runBytes_add_full]
        simp
      · obtain rfl := ends.resolve_left full
        rw [runBytes_of_lt (k := run.toNat + (0 + 1)) (by omega) (by omega)]
        simp [runBytes]

/-! Decoding the list (42_decoder.md R132): how far a decoder that has seen the same pixels is ahead of the encoder. -/

/-- The decoder's owed repeats and the operations it has not read, when it holds the encoder's PREV and CACHE. With a run pending
in the encoder the decoder has read that run already, and owes what the run will still grow by. -/
def InStep (m : DeltaMode) (todo : List Pixel) (q : Registers) (owed : Nat) (ops : List Instr) : Prop :=
  q.run.toNat = 0 ∧ owed = 0 ∧ ops = imageOps m todo q ∨
  0 < q.run.toNat ∧ imageOps m todo q = .run (q.run.toNat + owed) :: ops

/-- While a run is pending the next operation is a RUN at least as long (41_encoder.md R99 to R101). -/
theorem imageOps_of_pending {m : DeltaMode} {todo : List Pixel} {q : Registers} (pos : 0 < q.run.toNat)
    (hr : q.run.toNat ≤ 61) (h : todo ≠ []) :
    ∃ k ops, imageOps m todo q = .run k :: ops ∧ q.run.toNat ≤ k ∧ k ≤ 62 := by
  induction todo generalizing q with
  | nil => exact absurd rfl h
  | cons px todo ih =>
    have counted := toNat_count_succ hr
    rw [imageOps]
    by_cases he : px = q.prev
    · cases hf : q.runEnds todo.isEmpty
      · obtain ⟨-, notLast⟩ := Registers.runEnds_eq_false_iff.mp hf
        have more : todo ≠ [] := fun e => by
          rw [e] at notLast
          cases notLast
        have le := Registers.next_run_le (last := todo.isEmpty) (px := px) hr
        rw [Registers.ops_of_extends m he hf]
        rw [Registers.next_of_extends he hf] at le ⊢
        obtain ⟨k, ops, hops, lo, hi⟩ := ih (show 0 < (q.run + 1).toNat by omega) le more
        exact ⟨k, ops, hops, Nat.le_trans (by dsimp only; omega) lo, hi⟩
      · rw [Registers.ops_of_ends m he hf]
        exact ⟨_, _, rfl, by omega, by omega⟩
    · rw [Registers.ops_of_different m he, if_pos pos]
      exact ⟨_, _, rfl, Nat.le_refl _, by omega⟩

/-- A decoder step keeps in step with the encoder: it repeats PREV, or reads a RUN, or the operation tag_mux selected. -/
theorem InStep.next {m : DeltaMode} {px : Pixel} {todo : List Pixel} {q : Registers} {owed : Nat} {ops : List Instr}
    (hr : q.run.toNat ≤ 61) (h : InStep m (px :: todo) q owed ops) :
    (px = q.prev ∧ 0 < owed ∧ InStep m todo (q.next todo.isEmpty px) (owed - 1) ops) ∨
    (owed = 0 ∧ ∃ k ops', px = q.prev ∧ ops = .run k :: ops' ∧ (Instr.run k).WellFormed ∧
      InStep m todo (q.next todo.isEmpty px) (k - 1) ops') ∨
    (owed = 0 ∧ ∃ ops', px ≠ q.prev ∧ ops = tagMux m px q.prev q.cache :: ops' ∧
      InStep m todo (q.next todo.isEmpty px) 0 ops') := by
  have counted := toNat_count_succ hr
  rw [InStep, imageOps] at h
  by_cases he : px = q.prev
  · cases hf : q.runEnds todo.isEmpty
    · have le := Registers.next_run_le (last := todo.isEmpty) (px := px) hr
      rw [Registers.ops_of_extends m he hf] at h
      rw [Registers.next_of_extends he hf] at h le ⊢
      obtain ⟨-, notLast⟩ := Registers.runEnds_eq_false_iff.mp hf
      have more : todo ≠ [] := fun e => by
        rw [e] at notLast
        cases notLast
      obtain ⟨k, ops', hops', lo, hi⟩ := imageOps_of_pending (m := m) (q := ⟨px, q.run + 1, q.cache⟩)
        (show 0 < (q.run + 1).toNat by omega) le more
      have lo : q.run.toNat + 1 ≤ k := counted ▸ lo
      have ahead (owed : Nat) (hk : k = q.run.toNat + 1 + owed) :
          InStep m todo ⟨px, q.run + 1, q.cache⟩ owed ops' :=
        .inr ⟨show 0 < (q.run + 1).toNat by omega, by rw [hops', hk, ← counted]⟩
      rw [List.nil_append, hops'] at h
      obtain ⟨zero, rfl, rfl⟩ | ⟨pos, hops⟩ := h
      · exact .inr (.inl ⟨rfl, k, ops', he, rfl, wellFormed_run_iff.mpr (by omega), ahead (k - 1) (by omega)⟩)
      · obtain ⟨head, rfl⟩ := List.cons.inj hops
        have grows := Instr.run.inj head
        exact .inl ⟨he, by omega, ahead (owed - 1) (by omega)⟩
    · rw [Registers.ops_of_ends m he hf] at h
      rw [Registers.next_of_ends he hf] at h ⊢
      obtain ⟨zero, rfl, hops⟩ | ⟨pos, hops⟩ := h
      · exact .inr (.inl ⟨rfl, _, _, he, hops, wellFormed_run_iff.mpr (by omega), .inl ⟨rfl, by omega, rfl⟩⟩)
      · obtain ⟨head, rfl⟩ := List.cons.inj hops
        have one := Instr.run.inj head
        exact .inl ⟨he, by omega, .inl ⟨rfl, by omega, rfl⟩⟩
  · rw [Registers.ops_of_different m he] at h
    rw [Registers.next_of_different he] at h ⊢
    refine .inr (.inr ?_)
    obtain ⟨zero, rfl, hops⟩ | ⟨pos, hops⟩ := h
    · rw [if_neg (by omega)] at hops
      exact ⟨rfl, _, he, hops, .inl ⟨rfl, rfl, rfl⟩⟩
    · rw [if_pos pos] at hops
      obtain ⟨head, rfl⟩ := List.cons.inj hops
      have none := Instr.run.inj head
      exact ⟨by omega, _, he, rfl, .inl ⟨rfl, rfl, rfl⟩⟩

theorem InStep.ops_of_done {m : DeltaMode} {q : Registers} {owed : Nat} {ops : List Instr} (h : InStep m [] q owed ops) :
    ops = [] := by
  obtain ⟨-, -, hops⟩ | ⟨-, hops⟩ := h
  · exact hops
  · cases hops

end Sys2Proof.Machine

/-! SUPPORT. A whole ENCODE (41_encoder.md R95 to R114, 20_memory.md R58): acceptance and header, one step for each pixel, end marker. -/

namespace Sys2Proof.Machine

/-- The pixel can be the reading of its raw bytes: with 3 channels its alpha is 255 (41_encoder.md R97). -/
def ReadableAs (c : Byte) (px : Pixel) : Prop := c = 3#8 ∧ px.a = 255#8 ∨ c = 4#8

theorem rawPixel_of_pixelOfRaw {c : Byte} {raw : List Byte} {px : Pixel} (hlen : raw.length = c.toNat)
    (h : pixelOfRaw raw = some px) : raw = rawPixel c px ∧ ReadableAs c px := by
  obtain ⟨rfl, ha⟩ | rfl := pixelOfRaw_some h
  · obtain rfl : c = 3#8 := BitVec.eq_of_toNat_eq hlen.symm
    exact ⟨rfl, .inl ⟨rfl, ha⟩⟩
  · obtain rfl : c = 4#8 := BitVec.eq_of_toNat_eq hlen.symm
    exact ⟨rfl, .inr rfl⟩

/-- n pixels' worth of raw bytes are n pixels (20_memory.md R49). -/
theorem pixels_of_raw {c : Byte} (hc : c = 3#8 ∨ c = 4#8) {n : Nat} {raw : List Byte} (h : raw.length = n * c.toNat) :
    ∃ pixels : List Pixel, raw = pixels.flatMap (rawPixel c) ∧ pixels.length = n ∧ ∀ px ∈ pixels, ReadableAs c px := by
  induction n generalizing raw with
  | zero =>
    rw [Nat.zero_mul] at h
    exact ⟨[], List.eq_nil_of_length_eq_zero h, rfl, nofun⟩
  | succ n ih =>
    rw [Nat.succ_mul] at h
    obtain ⟨pixels, htail, hlen, readable⟩ := ih (raw := raw.drop c.toNat) (by rw [List.length_drop]; omega)
    have front : (raw.take c.toNat).length = c.toNat := by rw [List.length_take]; omega
    obtain ⟨px, hpx⟩ := pixelOfRaw_of_length (front ▸ hc.imp (congrArg BitVec.toNat) (congrArg BitVec.toNat))
    have first := rawPixel_of_pixelOfRaw front hpx
    refine ⟨px :: pixels, ?_, by rw [List.length_cons, hlen], List.forall_mem_cons.mpr ⟨first.2, readable⟩⟩
    rw [List.flatMap_cons, ← first.1, ← htail, List.take_append_drop]

/-- Pixel steps that each follow the encoder's registers follow them over any number of pixels. -/
theorem run_pixels {P : Registers → List Pixel → State → Prop}
    (next : ∀ {q px todo s}, P q (px :: todo) s → ∃ t, step s = .next t ∧ P (q.next todo.isEmpty px) todo t)
    {k : Nat} {q : Registers} {todo : List Pixel} {s : State} (hk : k ≤ todo.length) (h : P q todo s) :
    ∃ t : State, Host.Core.run Sys2Proof.core k s = .next t ∧ P (q.after k todo) (todo.drop k) t := by
  induction k generalizing q todo s with
  | zero => exact ⟨s, rfl, h⟩
  | succ k ih =>
    cases todo with
    | nil => exact absurd hk (Nat.not_succ_le_zero k)
    | cons px todo =>
      obtain ⟨u, hu, h⟩ := next h
      obtain ⟨t, ht, h⟩ := ih (Nat.le_of_succ_le_succ hk) h
      exact ⟨t, (run_succ_of_next hu).trans ht, h⟩

/-- An encoder pixel step with an unbounded OUT, as the function of its registers (41_encoder.md R98). -/
theorem step_encodes {s : State} {px : Pixel} {rest : List Byte} (hr : ReadsPixel s px rest) (hcap : s.cfg.outCap = none) :
    ∃ t, step s = .next t ∧ t.registers = s.registers.next s.lastPixel px ∧
      EncodedPixel px rest ((s.registers.ops s.cfg.deltaMode s.lastPixel px).flatMap encode) s t := by
  have commits := (step_of_readsPixel hr).trans (encodePixel_eq px { s with inp := rest })
  obtain ⟨t, ht, trun, tcache, tframe⟩ := encodedPixel_of_commit hr commits (accepts_of_unbounded s _ hcap)
  refine ⟨t, ht, ?_, tframe⟩
  obtain ⟨-, tprev, -⟩ := tframe
  have prev : (s.registers.next s.lastPixel px).prev = t.prev := Registers.next_prev.trans tprev.symm
  rw [State.registers, ← prev, trun, tcache]
  rfl

/-- The encoder among its pixels, seen from the state s0 after the header: total is what it will have written after them. -/
structure Encoding (s0 : State) (total : List Byte) (q : Registers) (todo : List Pixel) (s : State) : Prop where
  header : SameHeader s0 s
  environment : SameEnvironment s0 s
  status : s.status = s0.status
  registers : s.registers = q
  readable : ∀ px ∈ todo, ReadableAs s0.channels px
  inp : ∃ rest, s.inp = todo.flatMap (rawPixel s0.channels) ++ rest
  pixcnt : s.pixcnt.toNat + todo.length = s0.npix
  phase : s.phase = if todo.isEmpty then .ePad else .ePix
  written : s.written ++ (imageOps s0.cfg.deltaMode todo q).flatMap encode = total

theorem Encoding.next {s0 : State} (hh : s0.host = []) (hcap : s0.cfg.outCap = none) {total : List Byte} {q : Registers}
    {px : Pixel} {todo : List Pixel} {s : State} (h : Encoding s0 total q (px :: todo) s) :
    ∃ t, step s = .next t ∧ Encoding s0 total (q.next todo.isEmpty px) todo t := by
  obtain ⟨rest, hi⟩ := h.inp
  obtain ⟨readable, readableRest⟩ := List.forall_mem_cons.mp h.readable
  obtain ⟨-, -, channels, -⟩ := h.header
  obtain ⟨host, cfg, -⟩ := h.environment
  have npix := npix_of_sameHeader h.header
  have count := h.pixcnt
  rw [List.length_cons] at count
  have reads : ReadsPixel s px (todo.flatMap (rawPixel s0.channels) ++ rest) := by
    refine ⟨h.phase, host.trans hh, channels ▸ readable, ?_⟩
    rw [hi, channels, List.flatMap_cons, List.append_assoc]
  have lt : s.pixcnt.toNat < s.npix := by omega
  have last : s.lastPixel = todo.isEmpty := by
    rw [State.lastPixel, npix, ← count]
    cases todo <;> simp
  obtain ⟨t, ht, tregisters, ⟨-, twritten⟩, -, tpixcnt, tphase, tinp, tstatus, theader, tenv⟩ :=
    step_encodes reads (cfg ▸ hcap)
  rw [h.registers, last] at tregisters
  refine ⟨t, ht, h.header.trans theader, h.environment.trans tenv, tstatus.trans h.status, tregisters, readableRest,
    ⟨rest, tinp⟩, ?pixcnt, ?phase, ?written⟩
  case pixcnt =>
    rw [tpixcnt, toNat_pixcnt_succ lt]
    omega
  case phase =>
    rw [tphase, toNat_pixcnt_succ lt]
    exact if_congr (decide_eq_true_iff.symm.trans (by rw [← last]; rfl)) rfl rfl
  case written =>
    rw [← h.written, twritten, h.registers, last, imageOps, List.flatMap_append, cfg, List.append_assoc]

/-- The state of an ENCODE after its header (41_encoder.md R96). -/
structure HeaderWritten (s : State) (w h : BitVec 32) (c cs : Byte) (inp : List Byte) (s0 : State) : Prop where
  host : s0.host = []
  cfg : s0.cfg = s.cfg
  command : s0.command = some .encode
  width : s0.width = w
  height : s0.height = h
  channels : s0.channels = c
  status : s0.status = 1#32
  registers : s0.registers = startRegisters s.cfg.prevInit
  pixcnt : s0.pixcnt = 0
  inp : s0.inp = inp
  phase : s0.phase = if w.toNat * h.toNat > 0 then .ePix else .ePad
  written : s0.written = encodeHeader w h c cs

/-- The first two steps of an ENCODE: it is accepted and writes its header (41_encoder.md R95, R96). -/
theorem header_of_startsEncode {s : State} {w h : BitVec 32} {c cs : Byte} {raw rest : List Byte}
    (start : StartsEncode s w h c cs raw rest) :
    ∃ s0 : State, Host.Core.run Sys2Proof.core 2 s = .next s0 ∧ HeaderWritten s w h c cs (raw ++ rest) s0 := by
  obtain ⟨atRest, hhost, hc, hcs, hinp, -, hcap⟩ := start
  have accepted : step s = .next (startedEncode w h c cs { s with host := [] }) :=
    (step_of_move hhost).trans ((acceptEncode_at_rest (s := { s with host := [] }) atRest).trans (if_pos ⟨hc, hcs⟩))
  have writes : step (startedEncode w h c cs { s with host := [] }) = commit _ _ :=
    (step_of_codec rfl).trans (codecStep_eHdr rfl)
  have wrote := writes.trans (commit_of_accepts _ _ (accepts_of_unbounded _ _ hcap))
  exact ⟨_, (run_succ_of_next accepted).trans (run_succ_of_next wrote), rfl, rfl, rfl, rfl, rfl, rfl,
    (by decide : statusAtStart = 1#32), rfl, rfl, hinp, rfl, rfl⟩

/-- What an ENCODE of these pixels writes (41_encoder.md R114). -/
def encodedStream (m : DeltaMode) (init : Pixel) (w h : BitVec 32) (c cs : Byte) (pixels : List Pixel) : List Byte :=
  encodeHeader w h c cs ++ (imageOps m pixels (startRegisters init)).flatMap encode ++ endMarker

section
variable {s : State} {w h : BitVec 32} {c cs : Byte} {pixels : List Pixel} {rest : List Byte}
variable (start : StartsEncode s w h c cs (pixels.flatMap (rawPixel c)) rest)
  (size : pixels.length = w.toNat * h.toNat) (readable : ∀ px ∈ pixels, ReadableAs c px)
include start size readable

/-- After k pixels of an ENCODE the registers are those of the first k pixels (41_encoder.md R98). -/
theorem encodes_pixels {k : Nat} (hk : k ≤ pixels.length) :
    ∃ s0 t : State, Host.Core.run Sys2Proof.core (k + 2) s = .next t ∧
      HeaderWritten s w h c cs (pixels.flatMap (rawPixel c) ++ rest) s0 ∧
      Encoding s0 (encodeHeader w h c cs ++
          (imageOps s.cfg.deltaMode pixels (startRegisters s.cfg.prevInit)).flatMap encode)
        ((startRegisters s.cfg.prevInit).after k pixels) (pixels.drop k) t := by
  obtain ⟨s0, run, head⟩ := header_of_startsEncode start
  have npix : s0.npix = pixels.length := by rw [size, State.npix, head.width, head.height]
  have hcap : s0.cfg.outCap = none := by
    obtain ⟨-, -, -, -, -, -, hcap⟩ := start
    rw [head.cfg, hcap]
  have begins : Encoding s0 (encodeHeader w h c cs ++
      (imageOps s.cfg.deltaMode pixels (startRegisters s.cfg.prevInit)).flatMap encode)
      (startRegisters s.cfg.prevInit) pixels s0 := by
    refine ⟨⟨rfl, rfl, rfl, rfl, rfl⟩, ⟨rfl, rfl, rfl, rfl⟩, rfl, head.registers, head.channels ▸ readable,
      ⟨rest, head.channels ▸ head.inp⟩, ?pixcnt, ?phase, ?written⟩
    case pixcnt => rw [head.pixcnt, npix]; exact Nat.zero_add _
    case phase =>
      rw [head.phase, ← size]
      cases pixels <;> rfl
    case written => rw [head.written, head.cfg]
  obtain ⟨t, ht, enc⟩ := run_pixels (P := Encoding s0 _) (Encoding.next head.host hcap) hk begins
  rw [Nat.add_comm k 2, run_add 2 k run]
  exact ⟨s0, t, ht, head, enc⟩

/-- A whole ENCODE reaches DONE with the stream written (41_encoder.md R113, R114). -/
theorem encode_runs :
    ∃ t : State, Host.Core.run Sys2Proof.core (w.toNat * h.toNat + 3) s = .next t ∧ t.phase = .done ∧ t.status = 0x06#32 ∧
      t.written = encodedStream s.cfg.deltaMode s.cfg.prevInit w h c cs pixels ∧ t.run = 0 ∧
      t.command = some .encode := by
  obtain ⟨s0, u, run, head, enc⟩ := encodes_pixels start size readable (Nat.le_refl pixels.length)
  have all : pixels.drop pixels.length = [] := List.drop_length
  rw [all] at enc
  obtain ⟨host, cfg, -, command⟩ := enc.environment
  have hcap : u.cfg.outCap = none := by
    obtain ⟨-, -, -, -, -, -, hcap⟩ := start
    rw [cfg, head.cfg, hcap]
  obtain ⟨t, ht, ⟨-, twritten⟩, phase, -, -, -, -, -, tstatus, -, -, ⟨-, -, -, tcommand⟩, -, trun, -⟩ :=
    endMarkerWriterFinishesValid u enc.phase (host.trans head.host) (accepts_of_unbounded u 8 hcap)
  have flushed : ((startRegisters s.cfg.prevInit).after pixels.length pixels).run = 0 :=
    Registers.after_all_run fun _ => rfl
  have written : u.written = encodeHeader w h c cs ++
      (imageOps s.cfg.deltaMode pixels (startRegisters s.cfg.prevInit)).flatMap encode := by
    simpa [imageOps] using enc.written
  refine ⟨t, ?_, phase, tstatus (enc.status.trans head.status), ?_, ?_, tcommand.trans (command.trans head.command)⟩
  · rw [← size, run_add (pixels.length + 2) 1 run]
    exact run_succ_of_next ht
  · rw [twritten, written]
    rfl
  · rw [trun, ← flushed, ← enc.registers]
    rfl

end

/-- The image of a started ENCODE (41_encoder.md R97). -/
theorem image_of_startsEncode {s : State} {w h : BitVec 32} {c cs : Byte} {raw rest : List Byte}
    (start : StartsEncode s w h c cs raw rest) :
    ∃ pixels : List Pixel, raw = pixels.flatMap (rawPixel c) ∧ pixels.length = w.toNat * h.toNat ∧
      ∀ px ∈ pixels, ReadableAs c px := by
  obtain ⟨-, -, hc, -, -, hlen, -⟩ := start
  exact pixels_of_raw hc hlen

/-- Settles O54: one step for each pixel, and the operations of the image between the header and the end marker. -/
theorem encodeWritesOneWholeFrame : Obligations.EncodeWritesOneWholeFrame := by
  intro s w h c cs raw rest start
  obtain ⟨pixels, rfl, size, readable⟩ := image_of_startsEncode start
  obtain ⟨t, run, phase, status, written, trun, command⟩ := encode_runs start size readable
  have hidden : t.showsHeader = false := by simp [State.showsHeader, command]
  refine ⟨t, imageOps s.cfg.deltaMode pixels (startRegisters s.cfg.prevInit), run, phase, status, written,
    imageOps_wellFormed (Nat.zero_le _), ?covered, trun, ?observation⟩
  case covered => rw [covered_imageOps (Nat.zero_le _) fun _ => rfl, ← size]; exact Nat.zero_add _
  case observation => rw [State.observation, if_pos phase, status, hidden, if_neg Bool.false_ne_true]

/-- Settles O55: beside the 22 bytes of the frame, each operation has a byte for every 62 pixels it covers and at most 5 for
each. -/
theorem encodedLengthIsBounded : Obligations.EncodedLengthIsBounded := by
  intro s w h c cs raw rest start
  obtain ⟨t, ops, run, phase, -, written, wf, covered, -⟩ := encodeWritesOneWholeFrame s w h c cs raw rest start
  have bounds := length_flatMap_encode_by_covered wf
  have frame : t.written.length = 22 + (ops.flatMap encode).length := by
    rw [written, List.length_append, List.length_append, length_encodeHeader, length_endMarker]
    omega
  rw [covered] at bounds
  exact ⟨t, run, phase, by omega, by omega⟩

/-- Settles O56: every pixel repeats PREV, so the operations are the runs of one long repeat. -/
theorem uniformImageIsRunsOnly : Obligations.UniformImageIsRunsOnly := by
  intro s w h c cs rest start alpha long
  have raw : (List.replicate (w.toNat * h.toNat) (rawPixel c s.cfg.prevInit)).flatten =
      (List.replicate (w.toNat * h.toNat) s.cfg.prevInit).flatMap (rawPixel c) := by
    rw [List.flatMap_def, List.map_replicate]
  have readable : ∀ px ∈ List.replicate (w.toNat * h.toNat) s.cfg.prevInit, ReadableAs c px := by
    intro px hpx
    obtain ⟨-, -, hc, -⟩ := start
    rw [List.eq_of_mem_replicate hpx]
    exact hc.imp (fun three => ⟨three, alpha three⟩) id
  rw [raw] at start
  obtain ⟨t, run, phase, -, written, -⟩ := encode_runs start List.length_replicate readable
  refine ⟨t, run, phase, ?_⟩
  have runs := imageOps_uniform (m := s.cfg.deltaMode) (p := s.cfg.prevInit) (n := w.toNat * h.toNat) (run := 0)
    (cache := clearedCache) (Nat.zero_le _) (fun _ => rfl)
  rw [written, encodedStream, startRegisters, runs, runBytes]
  simp

/-- Settles O57: what is written is a function of the parameters, the arguments and the pixels. -/
theorem encodedBytesDependOnTheImageAlone : Obligations.EncodedBytesDependOnTheImageAlone := by
  intro s s' w h c cs raw rest rest' start start' init mode
  obtain ⟨pixels, rfl, size, readable⟩ := image_of_startsEncode start
  obtain ⟨t, run, phase, -, written, -⟩ := encode_runs start size readable
  obtain ⟨t', run', phase', -, written', -⟩ := encode_runs start' size readable
  exact ⟨t, t', run, run', phase, phase', by rw [written', written, init, mode]⟩

end Sys2Proof.Machine

/-! SUPPORT. A whole DECODE of an encoded stream (42_decoder.md R116 to R132): acceptance, magic and header, one step for each pixel in
step with the encoder's registers, end marker. -/

namespace Sys2Proof.Machine

/-- The decoder among its pixels, seen from the state d0 after the header: it holds the encoder's PREV and CACHE, is in step with
its operations, and raw is what it will have written after its pixels. -/
structure Decoding (d0 : State) (m : DeltaMode) (raw tail : List Byte) (q : Registers) (todo : List Pixel) (d : State) :
    Prop where
  header : SameHeader d0 d
  environment : SameEnvironment d0 d
  status : d.status = d0.status
  prev : d.prev = q.prev
  cache : d.cache = q.cache
  inRange : q.run.toNat ≤ 61
  inp : ∃ ops, d.inp = ops.flatMap encode ++ tail ∧ InStep m todo q d.run.toNat ops
  pixcnt : d.pixcnt.toNat + todo.length = d0.npix
  phase : d.phase = if todo.isEmpty then .dPad else .dPix
  written : d.written ++ todo.flatMap (rawPixel d0.outCh) = raw

theorem Registers.next_cache_of_repeat {last : Bool} {px : Pixel} {q : Registers} (he : px = q.prev) :
    (q.next last px).cache = q.cache := by
  rw [next, if_pos he]

section
variable {d0 : State} {m : DeltaMode} {raw tail : List Byte} {q : Registers} {px : Pixel} {todo : List Pixel} {d : State}

/-- A step that decodes the pixel and stays in step with the encoder goes on to the next pixel (42_decoder.md R119). -/
theorem Decoding.of_decodedPixel (h : Decoding d0 m raw tail q (px :: todo) d) {ops : List Instr} {t : State}
    (hframe : DecodedPixel { d with inp := ops.flatMap encode ++ tail } t) (hprev : t.prev = px)
    (hcache : t.cache = (q.next todo.isEmpty px).cache)
    (inStep : InStep m todo (q.next todo.isEmpty px) t.run.toNat ops) :
    Decoding d0 m raw tail (q.next todo.isEmpty px) todo t := by
  obtain ⟨⟨-, twritten⟩, tpixcnt, tphase, tinp, tstatus, theader, tenv⟩ := hframe
  obtain ⟨-, -, -, -, outCh⟩ := h.header
  have npix := npix_of_sameHeader h.header
  have count := h.pixcnt
  rw [List.length_cons] at count
  have lt : d.pixcnt.toNat < d.npix := by omega
  refine ⟨h.header.trans theader, h.environment.trans tenv, tstatus.trans h.status, hprev.trans Registers.next_prev.symm,
    hcache, Registers.next_run_le h.inRange, ⟨ops, tinp, inStep⟩, ?pixcnt, ?phase, ?written⟩
  case pixcnt =>
    rw [tpixcnt]
    show (d.pixcnt + 1).toNat + _ = _
    rw [toNat_pixcnt_succ lt]
    omega
  case phase =>
    have last : d.pixcnt.toNat + 1 = d.npix ↔ todo.isEmpty = true := by
      rw [npix, ← count]
      cases todo <;> simp
    rw [tphase]
    exact if_congr (by rw [← last, ← toNat_pixcnt_succ lt]; rfl) rfl h.phase
  case written => rw [← h.written, twritten, hprev, outCh, List.flatMap_cons, List.append_assoc]

theorem Decoding.next (hh : d0.host = []) (hcap : d0.cfg.outCap = none) (hoc : d0.outCh = 3#8 ∨ d0.outCh = 4#8)
    (h : Decoding d0 m raw tail q (px :: todo) d) :
    ∃ t : State, step d = .next t ∧ Decoding d0 m raw tail (q.next todo.isEmpty px) todo t := by
  obtain ⟨ops, hi, now⟩ := h.inp
  obtain ⟨-, -, -, -, outCh⟩ := h.header
  obtain ⟨host, cfg, -⟩ := h.environment
  have emits : CanEmit d := canEmit_of_unbounded (outCh ▸ hoc) (cfg ▸ hcap)
  obtain ⟨he, pos, inStep⟩ | ⟨none, k, ops', he, rfl, wf, inStep⟩ | ⟨none, ops', he, rfl, inStep⟩ := now.next h.inRange
  case inl =>
    obtain ⟨t, ht, trun, tprev, tcache, tframe⟩ := runRepeatReadsNothing d h.phase (host.trans hh) pos emits
    refine ⟨t, ht, h.of_decodedPixel (ops := ops) (by rw [← hi]; exact tframe) ?_ ?_ (trun ▸ inStep)⟩
    · rw [tprev, h.prev, he]
    · rw [tcache, h.cache, Registers.next_cache_of_repeat he]
  case inr.inl =>
    rw [List.flatMap_cons, List.append_assoc] at hi
    obtain ⟨t, ht, trun, tprev, tcache, tframe⟩ :=
      step_of_run wf h.phase (host.trans hh) (BitVec.eq_of_toNat_eq none) emits hi
    refine ⟨t, ht, h.of_decodedPixel tframe ?_ ?_ (trun ▸ inStep)⟩
    · rw [tprev, h.prev, he]
    · rw [tcache, h.cache, Registers.next_cache_of_repeat he]
  case inr.inr =>
    rw [List.flatMap_cons, List.append_assoc, ← h.prev, ← h.cache] at hi
    obtain ⟨wf, t, ht, tprev, tcache, trun, tframe⟩ :=
      selectedOperationRebuildsThePixel m px { d with inp := ops'.flatMap encode ++ tail } emits
    have read : decode d.inp = .op _ _ := hi ▸ decodeOfEncodeGivesTheOperation _ _ wf
    obtain ⟨-, runs, -⟩ := stepRunsTheDecodedOperation d _ _ h.phase (BitVec.eq_of_toNat_eq none) read
    refine ⟨t, (runs (host.trans hh)).trans ht, h.of_decodedPixel tframe tprev ?_ ?_⟩
    · rw [tcache, h.cache, Registers.next_of_different he]
    · rw [trun]
      exact none.symm ▸ inStep

end

/-- The state of a DECODE after its header (42_decoder.md R118). -/
structure HeaderRead (d : State) (w h : BitVec 32) (c cs oc : Byte) (body : List Byte) (d0 : State) : Prop where
  host : d0.host = []
  cfg : d0.cfg = d.cfg
  command : d0.command = some .decode
  width : d0.width = w
  height : d0.height = h
  channels : d0.channels = c
  colorspace : d0.colorspace = cs
  outCh : d0.outCh = oc
  status : d0.status = 1#32
  registers : d0.registers = startRegisters d.cfg.prevInit
  pixcnt : d0.pixcnt = 0
  inp : d0.inp = body
  phase : d0.phase = if w.toNat * h.toNat > 0 then .dPix else .dPad
  written : d0.written = []

/-- The header read gets back what the header writer packed (30_encoding.md R67). -/
theorem decHeader_of_encoded {s : State} {w h : BitVec 32} {c cs : Byte} {rest : List Byte}
    (hi : s.inp = bytesOfU32 w ++ bytesOfU32 h ++ [c, cs] ++ rest) :
    decHeader s = .next (loadHeader w h c cs { s with inp := rest }) := by
  simp only [decHeader, hi, bytesOfU32, List.cons_append, List.nil_append, u32_of_its_bytes]

/-- The first three steps of a DECODE of a stream that starts with this header (42_decoder.md R116 to R118). -/
theorem header_of_startsDecode {d : State} {w h : BitVec 32} {c cs oc : Byte} {stream body rest : List Byte}
    (start : StartsDecode d oc stream rest) (hstream : stream ++ rest = encodeHeader w h c cs ++ body) :
    ∃ d0 : State, Host.Core.run Sys2Proof.core 3 d = .next d0 ∧ HeaderRead d w h c cs oc body d0 := by
  obtain ⟨atRest, hhost, hoc, hinp, -⟩ := start
  let d1 : State := startedDecode oc { d with host := [] }
  let d2 : State := { d1 with inp := bytesOfU32 w ++ bytesOfU32 h ++ [c, cs] ++ body, phase := .dHdr }
  have accepted : step d = .next d1 :=
    (step_of_move hhost).trans ((acceptDecode_at_rest (s := { d with host := [] }) atRest).trans (if_pos hoc))
  have front : d1.inp = magicBytes ++ (bytesOfU32 w ++ bytesOfU32 h ++ [c, cs] ++ body) := by
    show d.inp = _
    rw [hinp, hstream, encodeHeader]
    simp only [List.append_assoc]
  have passes : step d1 = .next d2 :=
    (step_of_codec rfl).trans ((codecStep_dMagic rfl).trans ((decMagic_eq front rfl).trans (if_pos rfl)))
  have reads : step d2 = .next (loadHeader w h c cs { d2 with inp := body }) :=
    (step_of_codec rfl).trans ((codecStep_dHdr rfl).trans (decHeader_of_encoded rfl))
  exact ⟨_, (run_succ_of_next accepted).trans ((run_succ_of_next passes).trans (run_succ_of_next reads)), rfl, rfl, rfl,
    rfl, rfl, rfl, rfl, rfl, (by decide : statusAtStart = 1#32), rfl, rfl, rfl, rfl, rfl⟩

section
variable {d : State} {m : DeltaMode} {w h : BitVec 32} {c cs : Byte} {pixels : List Pixel} {rest : List Byte}
variable (start : StartsDecode d c (encodedStream m d.cfg.prevInit w h c cs pixels) rest)
  (size : pixels.length = w.toNat * h.toNat)
include start size

/-- After k pixels of a DECODE it is in step with the encoder's registers after k pixels (42_decoder.md R132). -/
theorem decodes_pixels {k : Nat} (hk : k ≤ pixels.length) :
    ∃ d0 t : State, Host.Core.run Sys2Proof.core (k + 3) d = .next t ∧
      HeaderRead d w h c cs c
        ((imageOps m pixels (startRegisters d.cfg.prevInit)).flatMap encode ++ (endMarker ++ rest)) d0 ∧
      Decoding d0 m (pixels.flatMap (rawPixel c)) (endMarker ++ rest)
        ((startRegisters d.cfg.prevInit).after k pixels) (pixels.drop k) t := by
  obtain ⟨d0, run, head⟩ := header_of_startsDecode (w := w) (h := h) (c := c) (cs := cs)
    (body := (imageOps m pixels (startRegisters d.cfg.prevInit)).flatMap encode ++ (endMarker ++ rest)) start
    (by simp only [encodedStream, List.append_assoc])
  obtain ⟨-, -, hoc, -, hcap⟩ := start
  have npix : d0.npix = pixels.length := by rw [size, State.npix, head.width, head.height]
  have prev : d0.prev = d.cfg.prevInit := congrArg Registers.prev head.registers
  have cache : d0.cache = clearedCache := congrArg Registers.cache head.registers
  have noRun : d0.run = 0 := congrArg Registers.run head.registers
  have begins : Decoding d0 m (pixels.flatMap (rawPixel c)) (endMarker ++ rest) (startRegisters d.cfg.prevInit) pixels d0 := by
    refine ⟨⟨rfl, rfl, rfl, rfl, rfl⟩, ⟨rfl, rfl, rfl, rfl⟩, rfl, prev, cache, Nat.zero_le _,
      ⟨_, head.inp, .inl ⟨rfl, congrArg BitVec.toNat noRun, rfl⟩⟩, ?pixcnt, ?phase, ?written⟩
    case pixcnt => rw [head.pixcnt, npix]; exact Nat.zero_add _
    case phase =>
      rw [head.phase, ← size]
      cases pixels <;> rfl
    case written => rw [head.written, head.outCh]; rfl
  obtain ⟨t, ht, dec⟩ := run_pixels (P := Decoding d0 m _ _)
    (Decoding.next head.host (head.cfg ▸ hcap) (head.outCh ▸ hoc)) hk begins
  rw [Nat.add_comm k 3, run_add 3 k run]
  exact ⟨d0, t, ht, head, dec⟩

/-- A whole DECODE of an encoded stream reaches DONE with the image written (42_decoder.md R131, R132). -/
theorem decode_runs :
    ∃ t : State, Host.Core.run Sys2Proof.core (w.toNat * h.toNat + 4) d = .next t ∧ t.phase = .done ∧
      t.status = 0x06#32 ∧ t.written = pixels.flatMap (rawPixel c) ∧ t.command = some .decode ∧
      t.width = w ∧ t.height = h ∧ t.channels = c ∧ t.colorspace = cs := by
  obtain ⟨d0, u, run, head, dec⟩ := decodes_pixels start size (Nat.le_refl pixels.length)
  have all : pixels.drop pixels.length = [] := List.drop_length
  rw [all] at dec
  obtain ⟨ops, hi, inStep⟩ := dec.inp
  obtain rfl := inStep.ops_of_done
  obtain ⟨host, -, -, command⟩ := dec.environment
  obtain ⟨uw, uh, uc, ucs, -⟩ := dec.header
  obtain ⟨t, ht, phase, -, -, -, -, -, twritten, ⟨tw, th, tc, tcs, -⟩, ⟨-, -, -, tcommand⟩, -, -, -, -, valid, -⟩ :=
    endMarkerDecidesValidity u endMarker rest dec.phase (host.trans head.host) hi rfl
  obtain ⟨-, -, tstatus⟩ := valid rfl
  refine ⟨t, ?_, phase, tstatus (dec.status.trans head.status), ?_, tcommand.trans (command.trans head.command),
    tw.trans (uw.trans head.width), th.trans (uh.trans head.height), tc.trans (uc.trans head.channels),
    tcs.trans (ucs.trans head.colorspace)⟩
  · rw [← size, run_add (pixels.length + 3) 1 run]
    exact run_succ_of_next ht
  · rw [twritten, ← dec.written]
    exact (List.append_nil _).symm

end

/-- What the DECODE of the round trip starts from: the image of the ENCODE, and the stream that ENCODE wrote. -/
theorem stream_of_encode {e e' d : State} {w h : BitVec 32} {c cs : Byte} {raw restE restD : List Byte}
    (startE : StartsEncode e w h c cs raw restE)
    (runE : Host.Core.run Sys2Proof.core (w.toNat * h.toNat + 3) e = .next e')
    (startD : StartsDecode d c e'.written restD) (init : d.cfg.prevInit = e.cfg.prevInit) :
    ∃ pixels : List Pixel, raw = pixels.flatMap (rawPixel c) ∧ pixels.length = w.toNat * h.toNat ∧
      (∀ px ∈ pixels, ReadableAs c px) ∧
      StartsDecode d c (encodedStream e.cfg.deltaMode d.cfg.prevInit w h c cs pixels) restD := by
  obtain ⟨pixels, rfl, size, readable⟩ := image_of_startsEncode startE
  obtain ⟨t, run, -, -, written, -⟩ := encode_runs startE size readable
  obtain rfl : e' = t := Host.Outcome.next.inj (runE.symm.trans run)
  exact ⟨pixels, rfl, size, readable, by rwa [init, ← written]⟩

/-- Settles O59: the DECODE follows the ENCODE's registers pixel for pixel and so writes its pixels; the header is read back as it
was written. -/
theorem decodeOfEncodeIsTheImage : Obligations.DecodeOfEncodeIsTheImage := by
  intro e e' d w h c cs raw restE restD startE runE startD init
  obtain ⟨pixels, rfl, size, -, startD⟩ := stream_of_encode startE runE startD init
  obtain ⟨t, run, phase, status, written, command, tw, th, tc, tcs⟩ := decode_runs startD size
  have shown : t.showsHeader = true := by
    rw [State.showsHeader, State.errMagic, status, command]
    decide
  refine ⟨t, run, phase, status, written, tw, th, tc, tcs, ?_⟩
  rw [State.observation, if_pos phase, if_pos shown, status, written, tw, th, tc, tcs]

/-- Settles O60: after k pixels both hold PREV and CACHE of the same registers, those after the image's first k pixels. -/
theorem encoderAndDecoderStayInLockstep : Obligations.EncoderAndDecoderStayInLockstep := by
  intro e e' d w h c cs raw restE restD k startE runE startD init hk
  obtain ⟨pixels, rfl, size, readable, startD⟩ := stream_of_encode startE runE startD init
  rw [← size] at hk
  obtain ⟨_, ek, runEk, -, enc⟩ := encodes_pixels startE size readable hk
  obtain ⟨_, dk, runDk, -, dec⟩ := decodes_pixels startD size hk
  rw [init] at dec
  refine ⟨ek, dk, runEk, runDk, ?_, ?_⟩
  · exact (congrArg Registers.cache enc.registers).trans dec.cache.symm
  · exact (congrArg Registers.prev enc.registers).trans dec.prev.symm

end Sys2Proof.Machine
